-- ==== Sys2Proof/Word.lean ====
section
/-! DEFINITION. Bytes, the four variants and the word type `Word_W` of a variant (00_scope.md rules R2, R5, R127). -/

namespace Sys2Proof

/-- A byte, `0..255` (00_scope.md section 6.1). -/
abbrev Byte := BitVec 8

/-- The four variants in scope, named by their digest size in bits (R2). No other variant exists. -/
inductive Variant where
  | blake224
  | blake256
  | blake384
  | blake512
deriving DecidableEq, Repr

/-- `W`, the word width in bits (R5): 32 in the 32-bit lane family, 64 in the 64-bit lane family. -/
abbrev Variant.w : Variant → Nat
  | .blake224 => 32
  | .blake256 => 32
  | .blake384 => 64
  | .blake512 => 64

/-- `TW = 2 * W`, the width of the length counter in bits (R5). -/
abbrev Variant.tw (v : Variant) : Nat := 2 * v.w

/-- `Word_W` of the variant: unsigned, arithmetic modulo `2^W` (R127, R65). -/
abbrev Word (v : Variant) := BitVec v.w

/-- A `TW`-bit number: the length counter `T` and the counter operand `t` (R14, R23). -/
abbrev Counter (v : Variant) := BitVec v.tw

/-- The chain value `H[0..7]` (R12). -/
abbrev ChainValue (v : Variant) := Vector (Word v) 8

/-- The salt `S[0..3]` (R13). -/
abbrev SaltWords (v : Variant) := Vector (Word v) 4

/-- A message block as the 16 words `M[0..15]` (R23, R33). -/
abbrev MessageWords (v : Variant) := Vector (Word v) 16

/-- The working vector `V[0..15]` of one compression (R22). -/
abbrev WorkingVector (v : Variant) := Vector (Word v) 16

end Sys2Proof
end

