-- ==== Sys2Proof/Config.lean ====
section
/-! DEFINITION. What a machine of this kind fixes once: the round counts (00_scope.md R6) and the open parameter
`KEY_MIX` (R8). The values this hardware takes are `Sys2Proof.Machine.config` in Machine/Tables.lean. -/

namespace Sys2Proof

/-- What `KEY_MIX` yields (R8): an initial chain value, a salt, and a prefix `P` absorbed before the message. -/
structure KeyMixed (v : Variant) where
  h0 : ChainValue v
  s0 : SaltWords v
  prefixBytes : List Byte
deriving DecidableEq, Repr, Inhabited

/-- The configuration of an engine (R6, R8). Every operation that depends on it takes it as an argument. -/
structure Config where
  /-- `ROUNDS32`, the number of rounds of the 32-bit lane family (R6). -/
  rounds32 : Nat
  /-- `ROUNDS64`, the number of rounds of the 64-bit lane family (R6). -/
  rounds64 : Nat
  /-- `KEY_MIX(VID, salt, key)`: a total function that depends on its arguments alone (R8). -/
  keyMix : (v : Variant) → SaltWords v → List Byte → KeyMixed v

/-- `KEY_MIX` of this hardware: no source says what it computes (R8, 92_eei_decisions.md D15, 93 U2), so it has no
body and no proof can see a value of it (assumption log 5). -/
opaque Config.openKeyMix : (v : Variant) → SaltWords v → List Byte → KeyMixed v

end Sys2Proof
end

