-- ==== Sys2Proof/Machine/Tables.lean ====
section
/-! DEFINITION. The per-variant parameters (00_scope.md R5, R6), the variant lookup (R47) and the constant ROMs
`IV`, `C`, `SIGMA`, `ROT` (40_variant_descriptor.md R58 to R62). -/

namespace Sys2Proof

/-- `VID`, the variant identifier: the digest size in bits (R5, R47). -/
def Variant.vid : Variant → BitVec 16
  | .blake224 => 224
  | .blake256 => 256
  | .blake384 => 384
  | .blake512 => 512

/-- The variant a `VID` field names; every value but the four is unsupported (R47). -/
def Variant.ofVid (vid : BitVec 16) : Option Variant :=
  if vid = 224 then some .blake224
  else if vid = 256 then some .blake256
  else if vid = 384 then some .blake384
  else if vid = 512 then some .blake512
  else none

/-- `OUT`, the digest length in bytes (R5). -/
def Variant.out : Variant → Nat
  | .blake224 => 28
  | .blake256 => 32
  | .blake384 => 48
  | .blake512 => 64

/-- `BS`, the block size in bytes (R5). -/
def Variant.bs : Variant → Nat
  | .blake224 => 64
  | .blake256 => 64
  | .blake384 => 128
  | .blake512 => 128

/-- `LB`, the width of the length field of the padding in bytes (R5). -/
def Variant.lb : Variant → Nat
  | .blake224 => 8
  | .blake256 => 8
  | .blake384 => 16
  | .blake512 => 16

/-- `LONG`: whether the variant is a long output of its family (R5). -/
def Variant.long : Variant → Bool
  | .blake224 => false
  | .blake256 => true
  | .blake384 => false
  | .blake512 => true

/-- `LIM = BS - LB - 1`, the largest fill that still takes single-block padding (R5). -/
def Variant.lim (v : Variant) : Nat := v.bs - v.lb - 1

/-- `W / 8`, the bytes of one word (R5). -/
def Variant.wordBytes (v : Variant) : Nat := v.w / 8

/-- `MAXBITS`, the largest total input length in bits (R7): `2^TW - 1`. -/
def Variant.maxBits (v : Variant) : Nat := 2 ^ v.tw - 1

/-- `NR`, the number of rounds of the variant under a configuration (R5, R6). -/
def Config.rounds (cfg : Config) : Variant → Nat
  | .blake224 => cfg.rounds32
  | .blake256 => cfg.rounds32
  | .blake384 => cfg.rounds64
  | .blake512 => cfg.rounds64

namespace Machine

/-- The configuration of this hardware (R6): `ROUNDS32 = 10`, `ROUNDS64 = 14`; `KEY_MIX` is left open (R8). -/
def config : Config where
  rounds32 := 10
  rounds64 := 14
  keyMix := Config.openKeyMix

/-- The other pair of round counts for which 95_test_vectors.md gives every digest (R6): 14 and 16. -/
def configTweak : Config where
  rounds32 := 14
  rounds64 := 16
  keyMix := Config.openKeyMix

/-- `IV[VID][0..7]`, the initial values (R58). -/
def iv : (v : Variant) → ChainValue v
  | .blake224 =>
    #v[0xC1059ED8, 0x367CD507, 0x3070DD17, 0xF70E5939, 0xFFC00B31, 0x68581511, 0x64F98FA7, 0xBEFA4FA4]
  | .blake256 =>
    #v[0x6A09E667, 0xBB67AE85, 0x3C6EF372, 0xA54FF53A, 0x510E527F, 0x9B05688C, 0x1F83D9AB, 0x5BE0CD19]
  | .blake384 =>
    #v[0xCBBB9D5DC1059ED8, 0x629A292A367CD507, 0x9159015A3070DD17, 0x152FECD8F70E5939,
       0x67332667FFC00B31, 0x8EB44A8768581511, 0xDB0C2E0D64F98FA7, 0x47B5481DBEFA4FA4]
  | .blake512 =>
    #v[0x6A09E667F3BCC908, 0xBB67AE8584CAA73B, 0x3C6EF372FE94F82B, 0xA54FF53A5F1D36F1,
       0x510E527FADE682D1, 0x9B05688C2B3E6C1F, 0x1F83D9ABFB41BD6B, 0x5BE0CD19137E2179]

/-- `C32`, the round constants of the 32-bit family (R59). -/
def c32 : Vector (BitVec 32) 16 :=
  #v[0x243F6A88, 0x85A308D3, 0x13198A2E, 0x03707344, 0xA4093822, 0x299F31D0, 0x082EFA98, 0xEC4E6C89,
     0x452821E6, 0x38D01377, 0xBE5466CF, 0x34E90C6C, 0xC0AC29B7, 0xC97C50DD, 0x3F84D5B5, 0xB5470917]

/-- `C64`, the round constants of the 64-bit family (R60). -/
def c64 : Vector (BitVec 64) 16 :=
  #v[0x243F6A8885A308D3, 0x13198A2E03707344, 0xA4093822299F31D0, 0x082EFA98EC4E6C89,
     0x452821E638D01377, 0xBE5466CF34E90C6C, 0xC0AC29B7C97C50DD, 0x3F84D5B5B5470917,
     0x9216D5D98979FB1B, 0xD1310BA698DFB5AC, 0x2FFD72DBD01ADFB7, 0xB8E1AFED6A267E96,
     0xBA7C9045F12C7F99, 0x24A19947B3916CF7, 0x0801F2E2858EFC16, 0x636920D871574E69]

/-- `C[0..15]` of the variant's family (R59, R60). -/
def roundConstants : (v : Variant) → Vector (Word v) 16
  | .blake224 => c32
  | .blake256 => c32
  | .blake384 => c64
  | .blake512 => c64

/-- `SIGMA[0..9][0..15]`, the message-word permutations, the same for all variants (R61). -/
def sigma : Vector (Vector (Fin 16) 16) 10 :=
  #v[#v[0, 1, 2, 3, 4, 5, 6, 7, 8, 9, 10, 11, 12, 13, 14, 15],
     #v[14, 10, 4, 8, 9, 15, 13, 6, 1, 12, 0, 2, 11, 7, 5, 3],
     #v[11, 8, 12, 0, 5, 2, 15, 13, 10, 14, 3, 6, 7, 1, 9, 4],
     #v[7, 9, 3, 1, 13, 12, 11, 14, 2, 6, 5, 10, 4, 0, 15, 8],
     #v[9, 0, 5, 7, 2, 4, 10, 15, 14, 1, 11, 12, 6, 8, 3, 13],
     #v[2, 12, 6, 10, 0, 11, 8, 3, 4, 13, 7, 5, 15, 14, 1, 9],
     #v[12, 5, 1, 15, 14, 13, 4, 10, 0, 7, 6, 3, 9, 2, 8, 11],
     #v[13, 11, 7, 14, 12, 1, 3, 9, 5, 0, 15, 4, 8, 6, 2, 10],
     #v[6, 15, 14, 9, 11, 3, 0, 8, 12, 2, 13, 7, 1, 4, 10, 5],
     #v[10, 2, 8, 4, 7, 6, 1, 5, 15, 11, 9, 14, 3, 12, 13, 0]]

/-- `ROT[0..3]`, the rotation schedule of the variant's family (R62). -/
def rot : Variant → Vector Nat 4
  | .blake224 => #v[16, 12, 8, 7]
  | .blake256 => #v[16, 12, 8, 7]
  | .blake384 => #v[32, 25, 16, 11]
  | .blake512 => #v[32, 25, 16, 11]

end Machine

end Sys2Proof
end

