-- ==== Sys2Proof/Machine/Bytes.lean ====
section
/-! DEFINITION. Conversions between bytes and words, all big-endian (00_scope.md section 6.2, 20_memory.md R33 to
R36), and the buffer access primitives `MemRead` and `MemWrite` (00_scope.md section 6.3, R32). -/

namespace Sys2Proof.Machine

/-- The number whose big-endian encoding is the given bytes (00_scope.md section 6.2, the sum in `be_W`). -/
def beNat (b : List Byte) : Nat := b.foldl (fun acc x => acc * 256 + x.toNat) 0

/-- `be_W(b)`: the word whose big-endian encoding is the bytes `b` (R33, R127). -/
def beWord (v : Variant) (b : List Byte) : Word v := BitVec.ofNat v.w (beNat b)

/-- `bytes_be(x, n)`: the `n` bytes encoding `x` big-endian; byte `i` is `(x >> (8 * (n - 1 - i))) mod 256` (R127). -/
def bytesBE (x n : Nat) : List Byte :=
  (List.range n).map fun i => BitVec.ofNat 8 (x >>> (8 * (n - 1 - i)))

/-- `zeros(n)`: `n` bytes `0x00` (00_scope.md section 6.1). -/
def zeros (n : Nat) : List Byte := List.replicate n 0

/-- `MemRead(addr, n)`: the bytes at offsets `addr .. addr+n-1` of the buffer (00_scope.md section 6.3). -/
def memRead (buf : List Byte) (addr n : Nat) : List Byte := (buf.drop addr).take n

/-- `MemWrite(addr, n, x)` with `n` the length of `x`: writes the bytes `x` at offsets `addr .. addr+n-1`
(00_scope.md section 6.3). -/
def memWrite (buf : List Byte) (addr : Nat) (x : List Byte) : List Byte :=
  buf.take addr ++ x ++ buf.drop (addr + x.length)

/-- Word `k` of a full buffer, from offsets `k*W/8 .. k*W/8 + W/8 - 1` (R32, R33, R90). -/
def loadWord (v : Variant) (buf : List Byte) (k : Nat) : Word v :=
  beWord v (memRead buf (k * v.wordBytes) v.wordBytes)

/-- `LOADBLOCK()`: the full buffer as 16 words (R90), which is `words` of a block (R33). -/
def loadBlock (v : Variant) (buf : List Byte) : MessageWords v :=
  #v[loadWord v buf 0, loadWord v buf 1, loadWord v buf 2, loadWord v buf 3,
     loadWord v buf 4, loadWord v buf 5, loadWord v buf 6, loadWord v buf 7,
     loadWord v buf 8, loadWord v buf 9, loadWord v buf 10, loadWord v buf 11,
     loadWord v buf 12, loadWord v buf 13, loadWord v buf 14, loadWord v buf 15]

/-- The form of the block buffer between commands (R19): fewer live cells than a block has. -/
def Memory.wf (v : Variant) (buf : List Byte) : Bool := decide (buf.length < v.bs)

end Sys2Proof.Machine
end

