-- ==== Sys2Proof/Machine/Compress.lean ====
section
/-! DEFINITION. The compression function, the round-mixing permutation and the message-schedule multiplexer
(41_compress.md R64 to R80). One definition for both families, parameterised by the variant (R80, R126). -/

namespace Sys2Proof.Machine

/-- `rotr_W(x, n)`, `0 < n < W` (00_scope.md section 6.2). -/
def rotr {w : Nat} (x : BitVec w) (n : Nat) : BitVec w := x >>> n ||| x <<< (w - n)

/-- `lo_W(t)`, the low half of the counter operand (R71). -/
def loHalf (v : Variant) (t : Counter v) : Word v := t.setWidth v.w

/-- `hi_W(t)`, the high half of the counter operand (R71). -/
def hiHalf (v : Variant) (t : Counter v) : Word v := (t >>> v.w).setWidth v.w

/-- The row of `SIGMA` that round `r` uses: `r mod 10` (R61, R67). -/
def sigmaRow (r : Nat) : Vector (Fin 16) 16 := sigma[r % 10]'(Nat.mod_lt _ (by decide))

/-- The first index `j = SIGMA[r mod 10][2*i]` of G step `i` (R67). -/
def selJ (r : Nat) (i : Fin 8) : Fin 16 := (sigmaRow r)[2 * i.val]'(by omega)

/-- The second index `k = SIGMA[r mod 10][2*i + 1]` of G step `i` (R67). -/
def selK (r : Nat) (i : Fin 8) : Fin 16 := (sigmaRow r)[2 * i.val + 1]'(by omega)

/-- `MSEL(r, i)`: the two operands of G step `i` of round `r` (R67). -/
def msel (v : Variant) (m : MessageWords v) (r : Nat) (i : Fin 8) : Word v × Word v :=
  (m[selJ r i] ^^^ (roundConstants v)[selK r i], m[selK r i] ^^^ (roundConstants v)[selJ r i])

/-- `V[a] <- V[a] + V[b] + x` (R66). -/
def addInto3 {v : Variant} (vv : WorkingVector v) (a b : Fin 16) (x : Word v) : WorkingVector v :=
  vv.set a (vv[a] + vv[b] + x)

/-- `V[c] <- V[c] + V[d]` (R66). -/
def addInto2 {v : Variant} (vv : WorkingVector v) (c d : Fin 16) : WorkingVector v :=
  vv.set c (vv[c] + vv[d])

/-- `V[d] <- rotr_W(V[d] ^ V[a], n)` (R66). -/
def xorRot {v : Variant} (vv : WorkingVector v) (d a : Fin 16) (n : Nat) : WorkingVector v :=
  vv.set d (rotr (vv[d] ^^^ vv[a]) n)

/-- `G(r, i, a, b, c, d)`: one mixing step, its eight lines in order (R66). -/
def mixG (v : Variant) (m : MessageWords v) (r : Nat) (i : Fin 8) (a b c d : Fin 16)
    (vv : WorkingVector v) : WorkingVector v :=
  let xy := msel v m r i
  let vv := addInto3 vv a b xy.1
  let vv := xorRot vv d a (rot v)[0]
  let vv := addInto2 vv c d
  let vv := xorRot vv b c (rot v)[1]
  let vv := addInto3 vv a b xy.2
  let vv := xorRot vv d a (rot v)[2]
  let vv := addInto2 vv c d
  xorRot vv b c (rot v)[3]

/-- The column step of round `r` (R68). -/
def columnStep (v : Variant) (m : MessageWords v) (r : Nat) (vv : WorkingVector v) : WorkingVector v :=
  let vv := mixG v m r 0 0 4 8 12 vv
  let vv := mixG v m r 1 1 5 9 13 vv
  let vv := mixG v m r 2 2 6 10 14 vv
  mixG v m r 3 3 7 11 15 vv

/-- The diagonal step of round `r` (R69). -/
def diagonalStep (v : Variant) (m : MessageWords v) (r : Nat) (vv : WorkingVector v) : WorkingVector v :=
  let vv := mixG v m r 4 0 5 10 15 vv
  let vv := mixG v m r 5 1 6 11 12 vv
  let vv := mixG v m r 6 2 7 8 13 vv
  mixG v m r 7 3 4 9 14 vv

/-- `ROUND(r)`: the column step, then the diagonal step (R70). -/
def mixRound (v : Variant) (m : MessageWords v) (r : Nat) (vv : WorkingVector v) : WorkingVector v :=
  diagonalStep v m r (columnStep v m r vv)

/-- Rounds `0 .. n-1` in increasing order (R72, R78). -/
def rounds (v : Variant) (m : MessageWords v) : Nat → WorkingVector v → WorkingVector v
  | 0, vv => vv
  | n + 1, vv => mixRound v m n (rounds v m n vv)

/-- `INITV(h, s, t)`: the working vector at the start of a compression (R71). -/
def initV (v : Variant) (h : ChainValue v) (s : SaltWords v) (t : Counter v) : WorkingVector v :=
  let rc := roundConstants v
  #v[h[0], h[1], h[2], h[3], h[4], h[5], h[6], h[7],
     s[0] ^^^ rc[0], s[1] ^^^ rc[1], s[2] ^^^ rc[2], s[3] ^^^ rc[3],
     loHalf v t ^^^ rc[4], loHalf v t ^^^ rc[5], hiHalf v t ^^^ rc[6], hiHalf v t ^^^ rc[7]]

/-- `FINAL_TWIST`, the words the final flag injects: all zero (R7, R74). -/
def finalTwist (v : Variant) : WorkingVector v := Vector.replicate 16 0

/-- The final-flag injection (R74): `V[i] <- V[i] ^ FINAL_TWIST[i]` for all `i` when `ff = 1`. -/
def injectFinal (v : Variant) (ff : Bool) (vv : WorkingVector v) : WorkingVector v :=
  if ff then Vector.ofFn fun i : Fin 16 => vv[i] ^^^ (finalTwist v)[i] else vv

/-- `FEEDFORWARD(h, s)`: `h'[i] = h[i] ^ s[i mod 4] ^ V[i] ^ V[i + 8]` (R73). -/
def feedForward (v : Variant) (h : ChainValue v) (s : SaltWords v) (vv : WorkingVector v) : ChainValue v :=
  #v[h[0] ^^^ s[0] ^^^ vv[0] ^^^ vv[8], h[1] ^^^ s[1] ^^^ vv[1] ^^^ vv[9],
     h[2] ^^^ s[2] ^^^ vv[2] ^^^ vv[10], h[3] ^^^ s[3] ^^^ vv[3] ^^^ vv[11],
     h[4] ^^^ s[0] ^^^ vv[4] ^^^ vv[12], h[5] ^^^ s[1] ^^^ vv[5] ^^^ vv[13],
     h[6] ^^^ s[2] ^^^ vv[6] ^^^ vv[14], h[7] ^^^ s[3] ^^^ vv[7] ^^^ vv[15]]

/-- `COMPRESS(h, m, s, t, ff)` (R64, R75): a total function of its operands and the variant (R76). -/
def compress (cfg : Config) (v : Variant) (h : ChainValue v) (m : MessageWords v) (s : SaltWords v)
    (t : Counter v) (ff : Bool) : ChainValue v :=
  feedForward v h s (rounds v m (cfg.rounds v) (injectFinal v ff (initV v h s t)))

end Sys2Proof.Machine
end

