-- ==== Sys2Proof/Syntax.lean ====
section
/-! DEFINITION. The request a command source presents and the six commands it may spell
(30_encoding.md rules R45, R46; spec/opcode_table.json). -/

namespace Sys2Proof

/-- The salt operand as it travels beside the command word (R45, R48): four words, each in a lane wide enough for
either family. For a 32-bit variant each word is a 32-bit value (see `Instr.wellFormed`; assumption log 9). -/
abbrev SaltOperand := Vector (BitVec 64) 4

/-- A request (R45): the command word and the three operands beside it. An operand the command does not use is
ignored (93_implementation_defined.md U7). -/
structure Request where
  cmd : BitVec 32
  salt : SaltOperand
  key : List Byte
  data : List Byte
deriving DecidableEq, Repr

/-- The commands, one constructor per row of the opcode table (R46). `vid` is the `VID` field as it stands in the
word; the salt operand is present exactly when `S = 1`, the key operand exactly when `K = 1` (R48). -/
inductive Instr where
  | describe (vid : BitVec 16)
  | init (vid : BitVec 16) (salt : Option SaltOperand) (key : Option (List Byte))
  | update (data : List Byte)
  | finalize
  | reset
  | hash (vid : BitVec 16) (salt : Option SaltOperand) (key : Option (List Byte)) (data : List Byte)
deriving DecidableEq, Repr

end Sys2Proof
end

