-- ==== Sys2Proof/Machine/State.lean ====
section
/-! DEFINITION. The state of the machine (10_state.md), its reset value (R117), and the reasons a step can stop. -/

namespace Sys2Proof.Machine

/-- The three states of a context that exists (R11); `Void` is `Engine.void`. -/
inductive Phase where
  | fresh
  | accumulating
  | finalized
deriving DecidableEq, Repr

/-- The four values of the context-state register `ST` (R11). -/
inductive ContextState where
  | void
  | fresh
  | accumulating
  | finalized
deriving DecidableEq, Repr

/-- `K` when present (R17): the key bytes, and the salt operand the same INIT or HASH had, which RESET needs again
because `S` may differ from it after `KEY_MIX` (R88). -/
structure KeyOperand (v : Variant) where
  bytes : List Byte
  salt : SaltWords v
deriving DecidableEq, Repr

/-- A context of the variant `v` (R9): `VD` is the index `v` itself (R10). -/
structure Ctx (v : Variant) where
  /-- `ST`, when a context exists (R11). -/
  phase : Phase
  /-- `H[0..7]`, the chain value (R12). -/
  h : ChainValue v
  /-- `S[0..3]`, the salt (R13). -/
  s : SaltWords v
  /-- `T`, the length counter, in bits (R14). -/
  t : Counter v
  /-- `BUF[0..FILL-1]`, the unprocessed input bytes, oldest first; `FILL` is its length (R15, R16). -/
  buf : List Byte
  /-- `K`, the retained key operand, or absent (R17). -/
  k : Option (KeyOperand v)
deriving DecidableEq, Repr

/-- The architectural state of the engine (R9, R30): no context, or a live one of some variant. In `Void` the
elements `VD`, `H`, `S`, `T`, `BUF`, `FILL`, `K` do not exist, so nothing can read them. -/
inductive Engine where
  | void
  | live (v : Variant) (c : Ctx v)
deriving DecidableEq, Repr

/-- The status of a response (R50). -/
inductive Status where
  | ok
  | unsupportedVariant
  | invalidKeyLength
  | alreadyFinalized
  | illegalCommand
deriving DecidableEq, Repr

/-- The payload of DESCRIBE (R51): the variant descriptor, in the order of the source's attribute list. -/
structure Descriptor (v : Variant) where
  w : BitVec 8
  nr : BitVec 8
  out : BitVec 8
  bs : BitVec 8
  rot : Vector (BitVec 8) 4
  iv : ChainValue v
  c : Vector (Word v) 16
deriving DecidableEq, Repr

/-- The payload of a response (R50 to R52). -/
inductive Payload where
  | none
  | descriptor (v : Variant) (d : Descriptor v)
  | digest (bytes : List Byte)
deriving DecidableEq, Repr

/-- A response (R50). -/
structure Response where
  status : Status
  payload : Payload
deriving DecidableEq, Repr

/-- What reaches the engine from outside: a request of the command source (R45), or a hardware reset (R117). -/
inductive Input where
  | command (r : Request)
  | hardwareReset
deriving DecidableEq, Repr

/-- The machine: the engine's architectural state, and the command source's side of the interface as plain data
(assumption log 1). `inbox` and `outbox` are the model's own fields; no command reads `outbox`. -/
structure State where
  /-- The eight architectural elements (R9). -/
  engine : Engine
  /-- What the command source still presents, the next one first (R41, R125). -/
  inbox : List Input
  /-- The responses delivered so far, oldest first (R125). -/
  outbox : List Response
deriving DecidableEq, Repr

/-- Reasons to stop with a fault. There is none: the engine's errors are responses, nothing halts it (R104, R105,
R112), and 93_implementation_defined.md Part 1 names no behaviour treated as a fault. -/
inductive Fault
deriving DecidableEq, Repr

/-- Reasons a step has no meaning. -/
inductive Refusal where
  /-- Raised by an arm of `exec` whose instruction has no meaning yet. Safe: nothing can be proved of it. -/
  | notModelled (mnemonic : String)
  /-- Raised by UPDATE and HASH, and by keyed INIT, HASH and RESET for the prefix of `KEY_MIX`, when the total input
  would exceed `MAXBITS` bits: outside the contract, a model must refuse (R84, 93 U3). Safe. -/
  | inputTooLong
deriving DecidableEq, Repr

/-- The machine right after hardware reset (R117): `ST = Void`, no command in progress, no response pending. -/
def State.reset : State := ⟨.void, [], []⟩

end Sys2Proof.Machine
end

