-- ==== Sys2Proof/Machine/Absorb.lean ====
section
/-! DEFINITION. The operations over one context: building a fresh one (R82, R83), absorbing bytes (R84, R85, R90),
the padding blocks and their counter operands (R92 to R96), and the digest (R97, R98). -/

namespace Sys2Proof.Machine

/-- `FILL`, the buffer-fill count (R16). -/
def Ctx.fill {v : Variant} (c : Ctx v) : Nat := c.buf.length

/-- `BUF[FILL] <- x; FILL <- FILL + 1; T <- T + 8` (R85). -/
def Ctx.push {v : Variant} (c : Ctx v) (x : Byte) : Ctx v :=
  { c with buf := memWrite c.buf c.fill [x], t := c.t + 8 }

/-- `M <- LOADBLOCK(); H <- COMPRESS(H, M, S, T, 0); FILL <- 0` (R85). -/
def Ctx.compressFull (cfg : Config) {v : Variant} (c : Ctx v) : Ctx v :=
  { c with h := compress cfg v c.h (loadBlock v c.buf) c.s c.t false, buf := [] }

/-- `ABSORB_BYTE(x)` (R85). -/
def absorbByte (cfg : Config) {v : Variant} (c : Ctx v) (x : Byte) : Ctx v :=
  if (c.push x).fill = v.bs then (c.push x).compressFull cfg else c.push x

/-- The loop of UPDATE over its data, in index order (R84, R49). -/
def absorb (cfg : Config) {v : Variant} (c : Ctx v) (data : List Byte) : Ctx v :=
  data.foldl (absorbByte cfg) c

/-- The contract of R84: the total input stays within `MAXBITS`. -/
def Ctx.fits {v : Variant} (c : Ctx v) (data : List Byte) : Bool :=
  decide (c.t.toNat + 8 * data.length ≤ v.maxBits)

/-- The accepted part of UPDATE (R84, R89), where the contract on the total length holds. -/
def updateCtx (cfg : Config) {v : Variant} (c : Ctx v) (data : List Byte) : Option (Ctx v) :=
  if data = [] then some c
  else if c.fits data then some { absorb cfg c data with phase := .accumulating }
  else none

/-- The context of an accepted INIT without key (R82). -/
def freshCtx (v : Variant) (salt : SaltWords v) : Ctx v :=
  ⟨.fresh, iv v, salt, 0, [], none⟩

/-- The context of a keyed INIT before the prefix of `KEY_MIX` is absorbed (R83). -/
def keyedStart (cfg : Config) (v : Variant) (salt : SaltWords v) (key : List Byte) : Ctx v :=
  ⟨.fresh, (cfg.keyMix v salt key).h0, (cfg.keyMix v salt key).s0, 0, [], some ⟨key, salt⟩⟩

/-- The accepted part of INIT with key (R83): `KEY_MIX`, then its prefix absorbed, `T` counting its bytes. The prefix
is input under the contract of R84 (assumption log 8). -/
def keyedCtx (cfg : Config) (v : Variant) (salt : SaltWords v) (key : List Byte) : Option (Ctx v) :=
  if (keyedStart cfg v salt key).fits (cfg.keyMix v salt key).prefixBytes then
    some (absorb cfg (keyedStart cfg v salt key) (cfg.keyMix v salt key).prefixBytes)
  else none

/-- The accepted part of INIT (R82, R83). -/
def createCtx (cfg : Config) (v : Variant) (salt : SaltWords v) : Option (List Byte) → Option (Ctx v)
  | none => some (freshCtx v salt)
  | some key => keyedCtx cfg v salt key

/-- The accepted part of RESET (R88): the start state of the last INIT or HASH again, with its variant, salt, key. -/
def resetCtx (cfg : Config) {v : Variant} (c : Ctx v) : Option (Ctx v) :=
  match c.k with
  | none => some { c with phase := .fresh, h := iv v, t := 0, buf := [] }
  | some key => keyedCtx cfg v key.salt key.bytes

/-- The discriminator byte `e`: `0x01` for the long outputs, `0x00` for the short (R93). -/
def discriminator (v : Variant) : Byte := if v.long then 0x01 else 0x00

/-- `PAD1(f)`, the bytes at offsets `f .. LIM` of a single padding block (R93). -/
def pad1 (v : Variant) (f : Nat) : List Byte :=
  if f = v.lim then [0x80 ||| discriminator v]
  else 0x80 :: (zeros (v.lim - f - 1) ++ [discriminator v])

/-- `PAD2`, the bytes at offsets `0 .. LIM` of the second of two padding blocks (R94). -/
def pad2 (v : Variant) : List Byte := zeros v.lim ++ [discriminator v]

/-- The length field `bytes_be(L, LB)` with `L = T` (R34, R92). -/
def lengthField {v : Variant} (c : Ctx v) : List Byte := bytesBE c.t.toNat v.lb

/-- One block FINALIZE compresses: its bytes, its counter operand `t` (R95) and its final flag (R96). -/
structure PaddingBlock (v : Variant) where
  bytes : List Byte
  t : Counter v
  ff : Bool
deriving DecidableEq, Repr

/-- The first of two padding blocks (R94): the buffered bytes, the marker, zeros. -/
def markerBlock {v : Variant} (c : Ctx v) : List Byte :=
  memWrite c.buf c.fill (0x80 :: zeros (v.bs - c.fill - 1))

/-- The block or blocks FINALIZE builds in the buffer, in the order it compresses them (R92 to R96). -/
def paddingBlocks {v : Variant} (c : Ctx v) : List (PaddingBlock v) :=
  if c.fill ≤ v.lim then
    [⟨memWrite c.buf c.fill (pad1 v c.fill ++ lengthField c), if c.fill > 0 then c.t else 0, true⟩]
  else
    [⟨markerBlock c, c.t, false⟩, ⟨memWrite (markerBlock c) 0 (pad2 v ++ lengthField c), 0, true⟩]

/-- `H <- COMPRESS(H, LOADBLOCK(), S, t, ff)` for one padding block (R92). -/
def compressPadding (cfg : Config) {v : Variant} (s : SaltWords v) (h : ChainValue v) (b : PaddingBlock v) :
    ChainValue v :=
  compress cfg v h (loadBlock v b.bytes) s b.t b.ff

/-- The accepted part of FINALIZE (R92, R99): `H`, `FILL` and `ST` written; `T`, `S`, `VD`, `K` unchanged. -/
def finalizeCtx (cfg : Config) {v : Variant} (c : Ctx v) : Ctx v :=
  { c with h := (paddingBlocks c).foldl (compressPadding cfg c.s) c.h, buf := [], phase := .finalized }

/-- `DIGEST(H)`: the chain value's words, big-endian in index order, its first `OUT` bytes (R35, R97, R98). -/
def digest (v : Variant) (h : ChainValue v) : List Byte :=
  (h.toList.flatMap fun x => bytesBE x.toNat v.wordBytes).take v.out

end Sys2Proof.Machine
end

