-- ==== Sys2Proof/WellFormed.lean ====
section
/-! DEFINITION. Which commands are well formed as operands go: the salt words are words of the variant (R48). -/

namespace Sys2Proof

/-- Each word of the salt operand is a `Word_W` of the variant `VID` names; for `W = 32`, a value of 32 bits (R48).
A `VID` that names no variant fixes no width, and an absent salt has none. -/
def saltFits (vid : BitVec 16) (salt : Option SaltOperand) : Bool :=
  match Variant.ofVid vid, salt with
  | some v, some o => o.toList.all fun x => decide (x.toNat < 2 ^ v.w)
  | _, _ => true

/-- A command is well formed when its salt operand fits the variant. A key of any length and data of any length and
content are well formed (R45, R49, R113): a wrong key length is an error of the command, not of its form (R107). -/
def Instr.wellFormed : Instr → Bool
  | .describe _ => true
  | .init vid salt _ => saltFits vid salt
  | .update _ => true
  | .finalize => true
  | .reset => true
  | .hash vid salt _ _ => saltFits vid salt

end Sys2Proof
end

