-- ==== Sys2Proof/Decode.lean ====
section
/-! DEFINITION. The command decoder, total on every request (30_encoding.md R46, R53, R54), and the encoder. -/

namespace Sys2Proof

/-- `bits[hi:lo]` of a command word (00_scope.md section 6.1). -/
def cmdBits (w : BitVec 32) (hi lo : Nat) : Nat := (w.toNat >>> lo) % 2 ^ (hi - lo + 1)

/-- `OPC`, bits 31:28 (R46). -/
def cmdOpc (w : BitVec 32) : Nat := cmdBits w 31 28

/-- `RSV1`, bits 27:26 (R46). -/
def cmdRsv1 (w : BitVec 32) : Nat := cmdBits w 27 26

/-- `K`, bit 25: a key operand is present (R46, R48). -/
def cmdK (w : BitVec 32) : Bool := cmdBits w 25 25 == 1

/-- `S`, bit 24: a salt operand is present (R46, R48). -/
def cmdS (w : BitVec 32) : Bool := cmdBits w 24 24 == 1

/-- `RSV0`, bits 23:16 (R46). -/
def cmdRsv0 (w : BitVec 32) : Nat := cmdBits w 23 16

/-- `VID`, bits 15:0: neither scaled, shifted nor extended (R46, R47). -/
def cmdVid (w : BitVec 32) : BitVec 16 := BitVec.ofNat 16 (cmdBits w 15 0)

/-- Why a command word spells no command: the four conditions of R53, in their order. -/
inductive IllegalReason where
  /-- R53 (a): `OPC` is 0x0 or in 0x7..0xF. -/
  | opcode
  /-- R53 (b): `RSV1` or `RSV0` is not zero. -/
  | reservedBits
  /-- R53 (c): `S` or `K` is set on a command other than INIT and HASH. -/
  | operandFlag
  /-- R53 (d): `VID` is not zero on UPDATE, FINALIZE or RESET. -/
  | variantField
deriving DecidableEq, Repr

/-- What the decoder answers: a command, or the reason the word is illegal (R53). -/
inductive Decoded where
  | instr (i : Instr)
  | illegal (why : IllegalReason)
deriving DecidableEq, Repr

/-- The salt operand of a request: present exactly when `S = 1` (R48). -/
def Request.saltOperand (r : Request) : Option SaltOperand := if cmdS r.cmd then some r.salt else none

/-- The key operand of a request: present exactly when `K = 1` (R48). -/
def Request.keyOperand (r : Request) : Option (List Byte) := if cmdK r.cmd then some r.key else none

/-- The decoder (R46, R53, R54): the checks look at the command word alone; the operands are taken unexamined. -/
def decode (r : Request) : Decoded :=
  let opc := cmdOpc r.cmd
  let vid := cmdVid r.cmd
  if opc = 0 ∨ 7 ≤ opc then .illegal .opcode
  else if cmdRsv1 r.cmd ≠ 0 ∨ cmdRsv0 r.cmd ≠ 0 then .illegal .reservedBits
  else if (cmdS r.cmd = true ∨ cmdK r.cmd = true) ∧ opc ≠ 2 ∧ opc ≠ 6 then .illegal .operandFlag
  else if vid ≠ 0 ∧ (opc = 3 ∨ opc = 4 ∨ opc = 5) then .illegal .variantField
  else if opc = 1 then .instr (.describe vid)
  else if opc = 2 then .instr (.init vid r.saltOperand r.keyOperand)
  else if opc = 3 then .instr (.update r.data)
  else if opc = 4 then .instr .finalize
  else if opc = 5 then .instr .reset
  else .instr (.hash vid r.saltOperand r.keyOperand r.data)

/-- A command word from its fields, reserved fields zero (R46). -/
def cmdWord (opc : Nat) (k s : Bool) (vid : BitVec 16) : BitVec 32 :=
  BitVec.ofNat 32 (opc * 2 ^ 28 + k.toNat * 2 ^ 25 + s.toNat * 2 ^ 24 + vid.toNat)

/-- The salt operand of a request whose command has none: zeros, ignored (93 U7). -/
def noSalt : SaltOperand := #v[0, 0, 0, 0]

/-- The request that spells a command (R45, R46): its word, and the operands it uses; the others are zero or empty. -/
def encode : Instr → Request
  | .describe vid => ⟨cmdWord 1 false false vid, noSalt, [], []⟩
  | .init vid salt key => ⟨cmdWord 2 key.isSome salt.isSome vid, salt.getD noSalt, key.getD [], []⟩
  | .update data => ⟨cmdWord 3 false false 0, noSalt, [], data⟩
  | .finalize => ⟨cmdWord 4 false false 0, noSalt, [], []⟩
  | .reset => ⟨cmdWord 5 false false 0, noSalt, [], []⟩
  | .hash vid salt key data => ⟨cmdWord 6 key.isSome salt.isSome vid, salt.getD noSalt, key.getD [], data⟩

/-- One row of the match and mask table of R46. -/
structure TableRow where
  pattern : BitVec 32
  mask : BitVec 32
deriving DecidableEq, Repr

/-- The match and mask table of R46, in its order: DESCRIBE, INIT, UPDATE, FINALIZE, RESET, HASH. -/
def tableRows : List TableRow :=
  [⟨0x10000000, 0xFFFF0000⟩, ⟨0x20000000, 0xFCFF0000⟩, ⟨0x30000000, 0xFFFFFFFF⟩,
   ⟨0x40000000, 0xFFFFFFFF⟩, ⟨0x50000000, 0xFFFFFFFF⟩, ⟨0x60000000, 0xFCFF0000⟩]

/-- A word selects a row when it agrees with the row's pattern under its mask (R46). -/
def TableRow.selects (row : TableRow) (w : BitVec 32) : Bool := w &&& row.mask == row.pattern

/-- The row of the table a command belongs to (R46). -/
def Instr.tableRow : Instr → TableRow
  | .describe _ => ⟨0x10000000, 0xFFFF0000⟩
  | .init _ _ _ => ⟨0x20000000, 0xFCFF0000⟩
  | .update _ => ⟨0x30000000, 0xFFFFFFFF⟩
  | .finalize => ⟨0x40000000, 0xFFFFFFFF⟩
  | .reset => ⟨0x50000000, 0xFFFFFFFF⟩
  | .hash _ _ _ _ => ⟨0x60000000, 0xFCFF0000⟩

/-- The request whose command word has the bits `w` in its low `nbits` and zeros above, and whose operands are zero
or empty: the form in which the opcode table's rows are asked about. -/
def tableRequest (nbits w : Nat) : Request := ⟨BitVec.ofNat 32 (w % 2 ^ nbits), noSalt, [], []⟩

/-- The command the decoder reads from the word with the bits `w` (the opcode table's numbering), if any. -/
def decodeTableWord (nbits w : Nat) : Option Instr :=
  match decode (tableRequest nbits w) with
  | .instr i => some i
  | .illegal _ => none

end Sys2Proof
end

