-- ==== Sys2Proof/Machine/Flags.lean ====
section
/-! DEFINITION. The context-state register and the flag `FIN` read from the state (R11, R18). There is no other flag:
no arithmetic sets one (R27), and `final_flag` is an operand of one compression (R23, R96). -/

namespace Sys2Proof.Machine

/-- The phase of a context as a value of `ST` (R11). -/
def Phase.st : Phase → ContextState
  | .fresh => .fresh
  | .accumulating => .accumulating
  | .finalized => .finalized

/-- `ST` of an engine (R11). -/
def Engine.st : Engine → ContextState
  | .void => .void
  | .live _ c => c.phase.st

/-- `ST` (R11). -/
def State.st (s : State) : ContextState := s.engine.st

/-- The 2-bit code of `ST` (R11). -/
def ContextState.code : ContextState → BitVec 2
  | .void => 0
  | .fresh => 1
  | .accumulating => 2
  | .finalized => 3

/-- `FIN`, the finalized flag: the predicate `ST = Finalized`, not a separate element (R18). -/
def State.fin (s : State) : Bool := decide (s.st = .finalized)

/-- `VD`, where a context exists (R10). -/
def Engine.vd : Engine → Option Variant
  | .void => none
  | .live v _ => some v

end Sys2Proof.Machine
end

