-- ==== Sys2Proof/Machine/Operands.lean ====
section
/-! DEFINITION. The operands of a command as the engine takes them (R47, R48), the checks on them in their order
(R106, R107, R110), and the codes of the response (R50). -/

namespace Sys2Proof.Machine

/-- A word of the salt operand as a `Word_W` of the variant: the low `W` bits of its lane (R48; assumption log 9). -/
def saltWord (v : Variant) (x : BitVec 64) : Word v := x.setWidth v.w

/-- The salt a command gives the context (R48, R82): the operand's four words when `S = 1`, else four zero words. -/
def saltWords (v : Variant) : Option SaltOperand → SaltWords v
  | none => #v[0, 0, 0, 0]
  | some o => #v[saltWord v o[0], saltWord v o[1], saltWord v o[2], saltWord v o[3]]

/-- The key-length check (R107): with `K = 1` the length must be `OUT` of the variant; with `K = 0` it cannot fail. -/
def keyLengthOk (v : Variant) : Option (List Byte) → Bool
  | none => true
  | some key => decide (key.length = v.out)

/-- The checks of INIT and HASH, in order (R106, R107, R110): the variant, then the key length. -/
def checkOperands (vid : BitVec 16) (key : Option (List Byte)) : Except Status Variant :=
  match Variant.ofVid vid with
  | none => .error .unsupportedVariant
  | some v => if keyLengthOk v key then .ok v else .error .invalidKeyLength

/-- The 8-bit code of a status (R50). -/
def Status.code : Status → BitVec 8
  | .ok => 0x00
  | .unsupportedVariant => 0x01
  | .invalidKeyLength => 0x02
  | .alreadyFinalized => 0x03
  | .illegalCommand => 0x04

end Sys2Proof.Machine
end

