-- ==== Sys2Proof/Machine/Ops.lean ====
section
/-! DEFINITION. The named operations over the machine's state: ending a command with a response (R50), rejecting one
(R105), hardware reset (R117), and taking the next input (R41). -/

namespace Sys2Proof.Machine

/-- `respond(status, payload)`: ends the command; the response is delivered to the command source (00_scope.md
section 6.3), which then presents the next request (R41). -/
def State.respond (s : State) (status : Status) (payload : Payload) : State :=
  { s with inbox := s.inbox.tail, outbox := s.outbox ++ [⟨status, payload⟩] }

/-- `raise <Error>`: the rejection sequence (R105). No element of the architectural state changes; the response has
the error's status and no payload; nothing is saved and control stays with the command source. -/
def State.reject (s : State) (e : Status) : State := s.respond e .none

/-- The engine's state written whole: a command is one atomic transition (R38). -/
def State.setEngine (s : State) (e : Engine) : State := { s with engine := e }

/-- A command accepted with the engine's new state and its response (R38, R50). -/
def State.accept (s : State) (e : Engine) (payload : Payload) : State := (s.setEngine e).respond .ok payload

/-- Hardware reset (R117): `ST = Void`, no response is given; the responses already delivered are the command
source's (R123). -/
def State.hardwareReset (s : State) : State := { s with engine := .void, inbox := s.inbox.tail }

/-- What the engine finds at its interface. -/
inductive Presented where
  /-- Nothing is presented: the engine is idle (R125). -/
  | idle
  /-- Hardware reset (R117). -/
  | hardwareReset
  /-- A word that spells no command (R53). -/
  | illegal
  /-- A command. -/
  | run (i : Instr)
deriving DecidableEq, Repr

/-- The next input, decoded (R41, R54). -/
def State.presented (s : State) : Presented :=
  match s.inbox with
  | [] => .idle
  | .hardwareReset :: _ => .hardwareReset
  | .command r :: _ =>
    match decode r with
    | .illegal _ => .illegal
    | .instr i => .run i

/-- A request put before everything the command source presents. -/
def State.present (s : State) (r : Request) : State := { s with inbox := .command r :: s.inbox }

end Sys2Proof.Machine
end

