-- ==== Sys2Proof/Machine/Context.lean ====
section
/-! DEFINITION. INIT, UPDATE and RESET (42_context_commands.md R81 to R91). -/

namespace Sys2Proof.Machine

/-- INIT (R82, R83): checks the variant, then the key length (R110); then makes the context, in every `ST`. -/
def execInit (vid : BitVec 16) (salt : Option SaltOperand) (key : Option (List Byte)) (s : State) :
    Host.Outcome State Fault Refusal :=
  match checkOperands vid key with
  | .error e => .next (s.reject e)
  | .ok v =>
    match createCtx config v (saltWords v salt) key with
    | none => .refused .inputTooLong
    | some c => .next (s.accept (.live v c) .none)

/-- The part of UPDATE where a context exists (R84): rejected if it is finalized, before any mutation. -/
def updateLive (data : List Byte) (v : Variant) (c : Ctx v) (s : State) : Host.Outcome State Fault Refusal :=
  if c.phase = .finalized then .next (s.reject .alreadyFinalized)
  else
    match updateCtx config c data with
    | none => .refused .inputTooLong
    | some c' => .next (s.accept (.live v c') .none)

/-- UPDATE (R84, R85, R89). -/
def execUpdate (data : List Byte) (s : State) : Host.Outcome State Fault Refusal :=
  match s.engine with
  | .void => .next (s.reject .alreadyFinalized)
  | .live v c => updateLive data v c s

/-- RESET (R88): the start state of the same variant, salt and key; rejected in `Void` only. -/
def execReset (s : State) : Host.Outcome State Fault Refusal :=
  match s.engine with
  | .void => .next (s.reject .alreadyFinalized)
  | .live v c =>
    match resetCtx config c with
    | none => .refused .inputTooLong
    | some c' => .next (s.accept (.live v c') .none)

end Sys2Proof.Machine
end

