-- ==== Sys2Proof/Machine/Describe.lean ====
section
/-! DEFINITION. DESCRIBE (40_variant_descriptor.md R57, R63). -/

namespace Sys2Proof.Machine

/-- A rotation distance as 8 bits of the descriptor (R51). -/
def rotByte (v : Variant) (i : Fin 4) : BitVec 8 := BitVec.ofNat 8 (rot v)[i]

/-- `descriptor(VID)`: a pure function of the variant (R51, R57, R63). -/
def descriptor (cfg : Config) (v : Variant) : Descriptor v where
  w := BitVec.ofNat 8 v.w
  nr := BitVec.ofNat 8 (cfg.rounds v)
  out := BitVec.ofNat 8 v.out
  bs := BitVec.ofNat 8 v.bs
  rot := #v[rotByte v 0, rotByte v 1, rotByte v 2, rotByte v 3]
  iv := iv v
  c := roundConstants v

/-- DESCRIBE (R57): responds with the descriptor, or `UnsupportedVariant`; reads and writes no state. -/
def execDescribe (vid : BitVec 16) (s : State) : Host.Outcome State Fault Refusal :=
  match Variant.ofVid vid with
  | none => .next (s.reject .unsupportedVariant)
  | some v => .next (s.respond .ok (.descriptor v (descriptor config v)))

end Sys2Proof.Machine
end

