-- ==== Sys2Proof/Machine/Finalize.lean ====
section
/-! DEFINITION. FINALIZE (43_finalize.md R92). -/

namespace Sys2Proof.Machine

/-- The part of FINALIZE where a context exists (R92): rejected if it is finalized, before any mutation. -/
def finalizeLive (v : Variant) (c : Ctx v) (s : State) : Host.Outcome State Fault Refusal :=
  if c.phase = .finalized then .next (s.reject .alreadyFinalized)
  else .next (s.accept (.live v (finalizeCtx config c)) (.digest (digest v (finalizeCtx config c).h)))

/-- FINALIZE (R92): pads, compresses one or two blocks, and responds with the digest. -/
def execFinalize (s : State) : Host.Outcome State Fault Refusal :=
  match s.engine with
  | .void => .next (s.reject .alreadyFinalized)
  | .live v c => finalizeLive v c s

end Sys2Proof.Machine
end

