-- ==== Sys2Proof/Machine/Hash.lean ====
section
/-! DEFINITION. HASH, the one-shot command (44_hash_oneshot.md R101 to R103). -/

namespace Sys2Proof.Machine

/-- The accepted parts of INIT, UPDATE and FINALIZE in turn (R101). -/
def hashCtx (cfg : Config) (v : Variant) (salt : SaltWords v) (key : Option (List Byte)) (data : List Byte) :
    Option (Ctx v) :=
  match createCtx cfg v salt key with
  | none => none
  | some c =>
    match updateCtx cfg c data with
    | none => none
    | some c' => some (finalizeCtx cfg c')

/-- HASH (R101): the checks of INIT (R102), then the three accepted parts, and one response with the digest. -/
def execHash (vid : BitVec 16) (salt : Option SaltOperand) (key : Option (List Byte)) (data : List Byte)
    (s : State) : Host.Outcome State Fault Refusal :=
  match checkOperands vid key with
  | .error e => .next (s.reject e)
  | .ok v =>
    match hashCtx config v (saltWords v salt) key data with
    | none => .refused .inputTooLong
    | some c => .next (s.accept (.live v c) (.digest (digest v c.h)))

end Sys2Proof.Machine
end

