-- ==== Sys2Proof/Machine/Dispatch.lean ====
section
/-! DEFINITION. One arm per command (30_encoding.md R46). -/

namespace Sys2Proof.Machine

def exec (i : Instr) (s : State) : Host.Outcome State Fault Refusal :=
  match i with
  | .describe vid => Sys2Proof.Machine.execDescribe vid s
  | .init vid salt key => Sys2Proof.Machine.execInit vid salt key s
  | .update data => Sys2Proof.Machine.execUpdate data s
  | .finalize => Sys2Proof.Machine.execFinalize s
  | .reset => Sys2Proof.Machine.execReset s
  | .hash vid salt key data => Sys2Proof.Machine.execHash vid salt key data s

end Sys2Proof.Machine
end

