-- ==== Sys2Proof/Machine/Step.lean ====
section
/-! DEFINITION. One step: the engine takes the next input and executes it to completion (R38, R41). -/

namespace Sys2Proof.Machine

/-- One step. Nothing presented: the engine is idle and holds its state (R125). A hardware reset: the reset state
(R117). A word that spells no command: `IllegalCommand` (R53, R109). Otherwise the command itself, whose response
takes the request off the interface. -/
def step (s : State) : Host.Outcome State Fault Refusal :=
  match s.presented with
  | .idle => .next s
  | .hardwareReset => .next s.hardwareReset
  | .illegal => .next (s.reject .illegalCommand)
  | .run i => exec i s

/-- `s` with the request of a table word presented next (assumption log 1). -/
def State.withFetchWord (s : State) (nbits w : Nat) : State := s.present (tableRequest nbits w)

end Sys2Proof.Machine
end

