-- ==== Sys2Proof/Machine/BlockForm.lean ====
section
/-! DEFINITION. The block-level form of UPDATE (42_context_commands.md R86). The machine runs the byte-serial form of
R85; this one exists so that their equivalence can be stated. -/

namespace Sys2Proof.Machine

/-- The chain value after block `j` (from 0) of the whole blocks inside `data`, which start at offset `first` (R86). -/
def foldBlock (cfg : Config) {v : Variant} (c : Ctx v) (data : List Byte) (first : Nat) (h : ChainValue v)
    (j : Nat) : ChainValue v :=
  compress cfg v h (loadBlock v ((data.drop (first + j * v.bs)).take v.bs)) c.s
    (c.t + BitVec.ofNat v.tw (8 * (first + (j + 1) * v.bs))) false

/-- UPDATE's effect on the context at block level (R86), without the write of `ST`. -/
def absorbBlocks (cfg : Config) {v : Variant} (c : Ctx v) (data : List Byte) : Ctx v :=
  let n := data.length
  let first := v.bs - c.fill
  if c.fill + n < v.bs then
    { c with buf := memWrite c.buf c.fill data, t := c.t + BitVec.ofNat v.tw (8 * n) }
  else
    let h0 := compress cfg v c.h (loadBlock v (c.buf ++ data.take first)) c.s
      (c.t + BitVec.ofNat v.tw (8 * first)) false
    { c with
      h := (List.range ((n - first) / v.bs)).foldl (foldBlock cfg c data first) h0
      buf := data.drop (n - (n - first) % v.bs)
      t := c.t + BitVec.ofNat v.tw (8 * n) }

end Sys2Proof.Machine
end

