-- ==== Sys2Proof/Safety.lean ====
section
/-! DEFINITION. What the claims speak of: the invariants of a context (10_state.md R19, R21), the contract on the
total input length (R84), safe steps, and runs of a list of commands (R125). -/

namespace Sys2Proof.Machine

/-- The invariants of a context at a command boundary (10_state.md section 5). -/
structure Ctx.Wf {v : Variant} (c : Ctx v) : Prop where
  /-- `FILL < BS` (R19). -/
  fill_lt : Memory.wf v c.buf = true
  /-- `T` is a multiple of 8 (R14). -/
  bytes_whole : c.t.toNat % 8 = 0
  /-- `FILL = (T / 8) mod BS` in `Fresh` and `Accumulating` (R21). -/
  fill_eq : c.phase ≠ .finalized → c.fill = c.t.toNat / 8 % v.bs
  /-- `FILL = 0` in `Finalized` (R99). -/
  finalized_empty : c.phase = .finalized → c.buf = []
  /-- In `Fresh` and without key: the context INIT made (R11, R29). -/
  fresh_start : c.phase = .fresh → c.k = none → c = freshCtx v c.s
  /-- In `Accumulating` some byte was absorbed (R11, R21). -/
  accumulating_pos : c.phase = .accumulating → 0 < c.t.toNat
  /-- `K` has `OUT` bytes (R17). -/
  key_length : ∀ k, c.k = some k → k.bytes.length = v.out
  /-- With a key, `S` is the salt `KEY_MIX` gave (R13, R83). -/
  key_salt : ∀ k, c.k = some k → c.s = (config.keyMix v k.salt k.bytes).s0
  /-- With a key, the keyed start state exists: INIT was accepted with it (R83, R88). -/
  key_accepted : ∀ k, c.k = some k → (keyedCtx config v k.salt k.bytes).isSome = true

/-- The invariant of the engine: every context it holds is well formed; `Void` holds none (R30). -/
def Engine.Inv : Engine → Prop
  | .void => True
  | .live _ c => c.Wf

/-- The machine's invariant. -/
def State.Inv (s : State) : Prop := s.engine.Inv

/-- The bits of the prefix `P` a key puts before the message (R8, R83); none without a key. -/
def prefixBits (v : Variant) (salt : SaltWords v) : Option (List Byte) → Nat
  | none => 0
  | some key => 8 * (config.keyMix v salt key).prefixBytes.length

/-- The contract on the total input length (R84, R101, 93 U3), for a command in a state: whatever input it absorbs
keeps the total within `MAXBITS`. -/
def InContract : Instr → State → Prop
  | .describe _, _ => True
  | .init vid salt key, _ => ∀ v, checkOperands vid key = .ok v → prefixBits v (saltWords v salt) key ≤ v.maxBits
  | .update data, s => ∀ v (c : Ctx v), s.engine = .live v c → c.phase ≠ .finalized →
      c.t.toNat + 8 * data.length ≤ v.maxBits
  | .finalize, _ => True
  | .reset, s => ∀ v (c : Ctx v) k, s.engine = .live v c → c.k = some k →
      prefixBits v k.salt (some k.bytes) ≤ v.maxBits
  | .hash vid salt key data, _ => ∀ v, checkOperands vid key = .ok v →
      prefixBits v (saltWords v salt) key + 8 * data.length ≤ v.maxBits

/-- A state from which the next step has a next state. -/
def State.Safe (s : State) : Prop := ∃ t, step s = .next t

/-- Commands issued one after the other (R41, R125), stopping at the first refusal. -/
def execAll : List Instr → State → Host.Outcome State Fault Refusal
  | [], s => .next s
  | i :: is, s =>
    match exec i s with
    | .next t => execAll is t
    | .fault r => .fault r
    | .refused r => .refused r

/-- The last response delivered (R50). -/
def State.lastResponse (s : State) : Option Response := s.outbox.getLast?

/-- `s` after a command that leaves the engine's state `e` and answers with a status and a payload: the request is
off the interface, the response is the last one delivered (R41, R50). -/
def State.ended (s : State) (e : Engine) (status : Status) (payload : Payload) : State :=
  ⟨e, s.inbox.tail, s.outbox ++ [⟨status, payload⟩]⟩

/-- `s` after a rejected command (R105): the engine as it was, the error's status, no payload. -/
def State.rejected (s : State) (e : Status) : State := s.ended s.engine e .none

/-- The transition table of `ST` (R81); `none` is the cell `AlreadyFinalized`. INIT and HASH stand for their accepted
columns. -/
def tableNext : ContextState → Instr → Option ContextState
  | st, .describe _ => some st
  | _, .init _ _ _ => some .fresh
  | .void, .update _ => none
  | .fresh, .update data => if data = [] then some .fresh else some .accumulating
  | .accumulating, .update _ => some .accumulating
  | .finalized, .update _ => none
  | .void, .finalize => none
  | .fresh, .finalize => some .finalized
  | .accumulating, .finalize => some .finalized
  | .finalized, .finalize => none
  | .void, .reset => none
  | _, .reset => some .fresh
  | _, .hash _ _ _ _ => some .finalized

/-- The status a request gets in a state `st`, by the order of tests of R110, read off the command word's fields. -/
def priorityStatus (r : Request) (st : ContextState) : Status :=
  if tableRows.all fun row => !row.selects r.cmd then .illegalCommand
  else
    let opc := r.cmd.extractLsb' 28 4
    let vid := r.cmd.extractLsb' 0 16
    if opc = 3 ∨ opc = 4 then
      if st = .void ∨ st = .finalized then .alreadyFinalized else .ok
    else if opc = 5 then
      if st = .void then .alreadyFinalized else .ok
    else if vid ≠ 224 ∧ vid ≠ 256 ∧ vid ≠ 384 ∧ vid ≠ 512 then .unsupportedVariant
    else if opc ≠ 1 ∧ r.cmd.extractLsb' 25 1 = 1 ∧ 8 * r.key.length ≠ vid.toNat then .invalidKeyLength
    else .ok

/-- The bits of a byte, most significant first (00_scope.md section 6.1). -/
def byteBits (b : Byte) : List Bool := (List.range 8).map fun i => b.getLsbD (7 - i)

/-- The `n` bits of a number, most significant first. -/
def natBits (n x : Nat) : List Bool := (List.range n).map fun i => x.testBit (n - 1 - i)

/-- `T` and `FILL` of the context held, if any. -/
def Engine.counts : Engine → Option (Nat × Nat)
  | .void => none
  | .live _ c => some (c.t.toNat, c.fill)

end Sys2Proof.Machine
end

