-- ==== Sys2Proof/Certificates/Slice0/Obligations.lean ====
section
/-! DEFINITION. The statements for the provers, from the numbered rules of spec/. Each docstring names the rule or the
sections a statement rests on; OBLIGATIONS.json lists them. -/

open Sys2Proof Sys2Proof.Machine

/-! ### Encoding and decoding (30_encoding.md) -/

/-- Decoding the request that spells a command gives the command, for every operand of every command (R46, R48). -/
def Obligations.DecodeOfEncodeIsTheCommand : Prop := ∀ i : Instr, decode (encode i) = .instr i

/-- A word that decodes has one meaning: the command's own encoding has that word, and the word lies in the command's
row of the match and mask table (R46). -/
def Obligations.EncodeOfDecodeIsTheWord : Prop :=
  ∀ (r : Request) (i : Instr), decode r = .instr i → (encode i).cmd = r.cmd ∧ i.tableRow.selects r.cmd = true

/-- R109: a request is answered with `IllegalCommand`, and the state kept, exactly when its word matches no row of the
opcode table, and that is exactly when one of the four conditions of R53 holds. -/
def Obligations.IllegalCommandExactlyOffTheTable : Prop :=
  ∀ (s : State) (r : Request) (rest : List Input), s.inbox = .command r :: rest →
    ((∀ row ∈ tableRows, row.selects r.cmd = false) ↔
      ((r.cmd.extractLsb' 28 4).toNat = 0 ∨ 7 ≤ (r.cmd.extractLsb' 28 4).toNat) ∨
      (r.cmd.extractLsb' 26 2 ≠ 0 ∨ r.cmd.extractLsb' 16 8 ≠ 0) ∨
      ((r.cmd.extractLsb' 24 1 = 1 ∨ r.cmd.extractLsb' 25 1 = 1) ∧
        (r.cmd.extractLsb' 28 4).toNat ≠ 2 ∧ (r.cmd.extractLsb' 28 4).toNat ≠ 6) ∨
      (r.cmd.extractLsb' 0 16 ≠ 0 ∧ ((r.cmd.extractLsb' 28 4).toNat = 3 ∨
        (r.cmd.extractLsb' 28 4).toNat = 4 ∨ (r.cmd.extractLsb' 28 4).toNat = 5))) ∧
    ((∀ row ∈ tableRows, row.selects r.cmd = false) ↔ step s = .next (s.rejected .illegalCommand))

/-- Command words of 95_test_vectors.md section 7.1, one for each command, decode as it lists them. -/
def Obligations.CommandWordsOfTheSpecDecode : Prop :=
  ∀ (salt : SaltOperand) (key data : List Byte),
    decode ⟨0x10000180, salt, key, data⟩ = .instr (.describe 384) ∧
    decode ⟨0x23000200, salt, key, data⟩ = .instr (.init 512 (some salt) (some key)) ∧
    decode ⟨0x22000100, salt, key, data⟩ = .instr (.init 256 none (some key)) ∧
    decode ⟨0x30000000, salt, key, data⟩ = .instr (.update data) ∧
    decode ⟨0x40000000, salt, key, data⟩ = .instr .finalize ∧
    decode ⟨0x50000000, salt, key, data⟩ = .instr .reset ∧
    decode ⟨0x61000200, salt, key, data⟩ = .instr (.hash 512 (some salt) none data) ∧
    decode ⟨0x32000000, salt, key, data⟩ = .illegal .operandFlag ∧
    decode ⟨0x20800100, salt, key, data⟩ = .illegal .reservedBits

/-- No word selects two rows of the match and mask table (R46). -/
def Obligations.TableRowsDoNotOverlap : Prop :=
  tableRows.Pairwise fun a b => ∀ w : BitVec 32, ¬(a.selects w = true ∧ b.selects w = true)

/-- Operands a command does not use are ignored: two requests with the same word that agree on the salt when `S = 1`,
on the key when `K = 1` and on the data for UPDATE and HASH decode alike (30_encoding.md section 1, 93 U7). -/
def Obligations.UnusedOperandsAreIgnored : Prop :=
  ∀ r r' : Request, r.cmd = r'.cmd →
    (r.cmd.extractLsb' 24 1 = 1 → r.salt = r'.salt) →
    (r.cmd.extractLsb' 25 1 = 1 → r.key = r'.key) →
    (r.cmd.extractLsb' 28 4 = 3 ∨ r.cmd.extractLsb' 28 4 = 6 → r.data = r'.data) →
    decode r = decode r'

/-- The variant identifier is the digest size in bits, and only the four values name a variant (30_encoding.md
section 2). -/
def Obligations.VariantIdentifiersAreTheFour : Prop :=
  (∀ v : Variant, Variant.ofVid v.vid = some v ∧ v.vid.toNat = 8 * v.out) ∧
  ∀ (vid : BitVec 16) (v : Variant), Variant.ofVid vid = some v → vid = v.vid

/-- R5: the parameters of each variant, in the order VID, W, NR, OUT, BS, LB, TW, LONG, words in the digest, LIM. -/
def Obligations.VariantParameterTable : Prop :=
  ∀ v : Variant,
    (v.vid.toNat, v.w, config.rounds v, v.out, v.bs, v.lb, v.tw, v.long, v.out / v.wordBytes, v.lim) =
      match v with
      | .blake224 => (224, 32, 10, 28, 64, 8, 64, false, 7, 55)
      | .blake256 => (256, 32, 10, 32, 64, 8, 64, true, 8, 55)
      | .blake384 => (384, 64, 14, 48, 128, 16, 128, false, 6, 111)
      | .blake512 => (512, 64, 14, 64, 128, 16, 128, true, 8, 111)

/-! ### The step (20_memory.md section 6, 70_reset_and_hazards.md) -/

/-- After hardware reset there is no context and no response (70_reset_and_hazards.md section 1); the empty interface
is the model's (assumption log 1). -/
def Obligations.ResetLeavesNoContext : Prop :=
  State.reset.engine = .void ∧ State.reset.st = .void ∧ State.reset.st.code = 0 ∧ State.reset.fin = false ∧
    State.reset.inbox = [] ∧ State.reset.outbox = []

/-- A hardware reset leaves `Void` and gives no response (70_reset_and_hazards.md section 1, 93 U8); that it falls
between commands is the model's (assumption log 11). -/
def Obligations.HardwareResetVoidsTheEngine : Prop :=
  ∀ (s : State) (rest : List Input), s.inbox = .hardwareReset :: rest → step s = .next ⟨.void, rest, s.outbox⟩

/-- A request whose word decodes to a command is executed as that command: the step is `exec` of it, which takes the
request off the interface and delivers exactly one response. -/
def Obligations.StepRunsTheDecodedCommand : Prop :=
  ∀ (s : State) (r : Request) (rest : List Input) (i : Instr), s.inbox = .command r :: rest → decode r = .instr i →
    step s = exec i s ∧
    ∀ t, exec i s = .next t → t.inbox = rest ∧ ∃ resp, t.outbox = s.outbox ++ [resp]

/-- With nothing presented the engine holds its state (70_reset_and_hazards.md section 5; the form is the model's,
assumption log 1). -/
def Obligations.IdleEngineHoldsItsState : Prop := ∀ s : State, s.inbox = [] → step s = .next s

/-- R50: the codes of the statuses; every request is answered once; an answer other than `OK` has no payload (and leaves
every architectural element as it was); a payload comes from DESCRIBE, FINALIZE or HASH alone. -/
def Obligations.EachCommandGetsOneResponse : Prop :=
  (Status.ok.code = 0x00 ∧ Status.unsupportedVariant.code = 0x01 ∧ Status.invalidKeyLength.code = 0x02 ∧
    Status.alreadyFinalized.code = 0x03 ∧ Status.illegalCommand.code = 0x04) ∧
  ∀ (s t : State) (r : Request) (rest : List Input), s.inbox = .command r :: rest → step s = .next t →
    t.inbox = rest ∧ ∃ resp, t.outbox = s.outbox ++ [resp] ∧
      (resp.status ≠ .ok → resp.payload = .none ∧ t.engine = s.engine) ∧
      (resp.payload ≠ .none → ((∃ vid, decode r = .instr (.describe vid)) ∨ decode r = .instr .finalize ∨
        ∃ vid salt key data, decode r = .instr (.hash vid salt key data)))

/-- A response once delivered is never changed by later steps, however many (70_reset_and_hazards.md section 3). -/
def Obligations.DeliveredResponsesStand : Prop :=
  ∀ (n : Nat) (s t : State), Sys2Proof.core.run n s = .next t → s.outbox <+: t.outbox

/-! ### The compression function (41_compress.md) -/

/-- R67: the two operands of a G step, with the row `r mod 10` of the permutation table. -/
def Obligations.MultiplexerSelectsBySigma : Prop :=
  ∀ (v : Variant) (m : MessageWords v) (r : Nat) (i : Fin 8) (row : Vector (Fin 16) 16) (j k : Fin 16),
    sigma[r % 10]? = some row → row[2 * i.val]? = some j → row[2 * i.val + 1]? = some k →
    msel v m r i = (m[j] ^^^ (roundConstants v)[k], m[k] ^^^ (roundConstants v)[j])

/-- Over the eight G steps of a round every message word and every constant is selected exactly once (41_compress.md
section 3, an inference the spec marks as derived). -/
def Obligations.RoundUsesEveryWordOnce : Prop :=
  ∀ r : Nat, ((List.finRange 8).flatMap fun i => [selJ r i, selK r i]).Perm (List.finRange 16)

/-- R66: the four words a mixing step writes, line by line with the rotation distances as numbers, and nothing else. -/
def Obligations.MixingStepEquations : Prop :=
  ∀ (v : Variant) (m : MessageWords v) (r : Nat) (i : Fin 8) (a b c d : Fin 16) (vv : WorkingVector v),
    a ≠ b → a ≠ c → a ≠ d → b ≠ c → b ≠ d → c ≠ d →
    let n0 := if v.w = 32 then 16 else 32
    let n1 := if v.w = 32 then 12 else 25
    let n2 := if v.w = 32 then 8 else 16
    let n3 := if v.w = 32 then 7 else 11
    let xy := msel v m r i
    let a1 := vv[a] + vv[b] + xy.1
    let d1 := (vv[d] ^^^ a1).rotateRight n0
    let c1 := vv[c] + d1
    let b1 := (vv[b] ^^^ c1).rotateRight n1
    let a2 := a1 + b1 + xy.2
    let d2 := (d1 ^^^ a2).rotateRight n2
    let c2 := c1 + d2
    let b2 := (b1 ^^^ c2).rotateRight n3
    let out := mixG v m r i a b c d vv
    out[a] = a2 ∧ out[b] = b2 ∧ out[c] = c2 ∧ out[d] = d2 ∧
      ∀ j : Fin 16, j ≠ a → j ≠ b → j ≠ c → j ≠ d → out[j] = vv[j]

/-- G steps on disjoint words commute, and the four of a column step, or of a diagonal step, give the same result in
the reverse order (41_compress.md section 5, an inference the spec marks as derived). -/
def Obligations.DisjointMixingStepsCommute : Prop :=
  ∀ (v : Variant) (m : MessageWords v) (r : Nat),
    (∀ (i i' : Fin 8) (a b c d a' b' c' d' : Fin 16) (vv : WorkingVector v),
      (∀ p ∈ [a, b, c, d], ∀ q ∈ [a', b', c', d'], p ≠ q) →
      mixG v m r i a b c d (mixG v m r i' a' b' c' d' vv) = mixG v m r i' a' b' c' d' (mixG v m r i a b c d vv)) ∧
    (∀ vv : WorkingVector v, columnStep v m r vv =
      mixG v m r 0 0 4 8 12 (mixG v m r 1 1 5 9 13 (mixG v m r 2 2 6 10 14 (mixG v m r 3 3 7 11 15 vv)))) ∧
    (∀ vv : WorkingVector v, diagonalStep v m r vv =
      mixG v m r 4 0 5 10 15 (mixG v m r 5 1 6 11 12 (mixG v m r 6 2 7 8 13 (mixG v m r 7 3 4 9 14 vv))))

/-- The final flag has no effect on the result (41_compress.md section 9, 90_conflicts.md C3). -/
def Obligations.FinalFlagHasNoEffect : Prop :=
  ∀ (cfg : Config) (v : Variant) (h : ChainValue v) (m : MessageWords v) (s : SaltWords v) (t : Counter v),
    compress cfg v h m s t true = compress cfg v h m s t false

/-- R71: the working vector at the start of a compression, the counter halves as numbers. -/
def Obligations.WorkingVectorInitialisation : Prop :=
  ∀ (v : Variant) (h : ChainValue v) (s : SaltWords v) (t : Counter v),
    let vv := initV v h s t
    let rc := roundConstants v
    (∀ i : Fin 8, vv[i.val] = h[i.val]) ∧ (∀ i : Fin 4, vv[i.val + 8] = s[i.val] ^^^ rc[i.val]) ∧
      vv[12].toNat = (t.toNat % 2 ^ v.w) ^^^ rc[4].toNat ∧ vv[13].toNat = (t.toNat % 2 ^ v.w) ^^^ rc[5].toNat ∧
      vv[14].toNat = (t.toNat / 2 ^ v.w) ^^^ rc[6].toNat ∧ vv[15].toNat = (t.toNat / 2 ^ v.w) ^^^ rc[7].toNat

/-- R73: each word of the new chain value, from the operands `h` and `s` of the compression and the working vector
after the last round. -/
def Obligations.FeedForwardOfEveryWord : Prop :=
  ∀ (cfg : Config) (v : Variant) (h : ChainValue v) (m : MessageWords v) (s : SaltWords v) (t : Counter v) (ff : Bool)
    (i : Fin 8),
    let vv := rounds v m (cfg.rounds v) (injectFinal v ff (initV v h s t))
    (compress cfg v h m s t ff)[i.val] =
      h[i.val] ^^^ s[i.val % 4]'(Nat.mod_lt _ (Nat.zero_lt_succ 3)) ^^^ vv[i.val] ^^^ vv[i.val + 8]

/-- R68, R69, R70, R72: a compression runs `NR` rounds, 10 or 14, in increasing order from 0, each a column step and
then a diagonal step, with the index sets of the spec. -/
def Obligations.RoundsRunInOrder : Prop :=
  (∀ (v : Variant) (h : ChainValue v) (m : MessageWords v) (s : SaltWords v) (t : Counter v),
    compress config v h m s t false = feedForward v h s (rounds v m (if v.w = 32 then 10 else 14) (initV v h s t))) ∧
  ∀ (v : Variant) (m : MessageWords v) (n : Nat) (vv : WorkingVector v),
    rounds v m n vv = (List.range n).foldl (fun vv r =>
      mixG v m r 7 3 4 9 14 (mixG v m r 6 2 7 8 13 (mixG v m r 5 1 6 11 12 (mixG v m r 4 0 5 10 15
        (mixG v m r 3 3 7 11 15 (mixG v m r 2 2 6 10 14 (mixG v m r 1 1 5 9 13 (mixG v m r 0 0 4 8 12 vv)))))))) vv

/-! ### Byte order (20_memory.md section 2) -/

/-- `bytes_be` and the number it encodes are inverse to each other (00_scope.md section 6.2). -/
def Obligations.BigEndianRoundTrip : Prop :=
  (∀ x n : Nat, x < 256 ^ n → beNat (bytesBE x n) = x) ∧ ∀ b : List Byte, bytesBE (beNat b) b.length = b

/-- R33: word `k` of a block is the word whose big-endian encoding is the block's bytes `k*W/8 .. (k+1)*W/8`. -/
def Obligations.BlockWordsAreBigEndian : Prop :=
  ∀ (v : Variant) (b : List Byte), b.length = v.bs →
    ∀ k : Fin 16, bytesBE (loadBlock v b)[k.val].toNat (v.w / 8) = (b.drop (k.val * (v.w / 8))).take (v.w / 8)

/-- R35, R97: the digest has `OUT` bytes, and its byte `i` is byte `i mod (W/8)` of word `i / (W/8)` of the chain
value, most significant first. -/
def Obligations.DigestIsTruncatedBigEndian : Prop :=
  ∀ (v : Variant) (h : ChainValue v), (digest v h).length = v.out ∧
    ∀ i, i < v.out → (digest v h)[i]? =
      some (BitVec.ofNat 8 ((h.toList.getD (i / (v.w / 8)) 0).toNat / 256 ^ (v.w / 8 - 1 - i % (v.w / 8))))

/-- A digest in a response has exactly `OUT` bytes and is that of the chain value the engine then holds, finalized
(30_encoding.md section 3, 44_hash_oneshot.md section 1). -/
def Obligations.DigestResponseHasOutBytes : Prop :=
  ∀ (i : Instr) (s t : State) (b : List Byte), exec i s = .next t → t.outbox = s.outbox ++ [⟨.ok, .digest b⟩] →
    ∃ (v : Variant) (c : Ctx v), t.engine = .live v c ∧ c.phase = .finalized ∧ b.length = v.out ∧ b = digest v c.h

/-! ### DESCRIBE and the errors (40_variant_descriptor.md, 60_exceptions.md) -/

/-- R57: a DESCRIBE word decodes as such; DESCRIBE of a supported variant answers its descriptor and changes no state,
in every state; of any other identifier it is rejected with `UnsupportedVariant`. -/
def Obligations.DescribeAnswersTheDescriptor : Prop :=
  (∀ (vid : BitVec 16) (salt : SaltOperand) (key data : List Byte),
    decode ⟨0x1000#16 ++ vid, salt, key, data⟩ = .instr (.describe vid)) ∧
  (∀ (v : Variant) (s : State), ∃ d : Descriptor v,
    exec (.describe v.vid) s = .next (s.ended s.engine .ok (.descriptor v d)) ∧
      d.w.toNat = v.w ∧ d.nr.toNat = (if v.w = 32 then 10 else 14) ∧ d.out.toNat = v.out ∧ d.bs.toNat = v.bs ∧
      d.rot = (if v.w = 32 then #v[16, 12, 8, 7] else #v[32, 25, 16, 11]) ∧ d.iv = iv v ∧ d.c = roundConstants v) ∧
  ∀ (vid : BitVec 16) (s : State), vid ≠ 224 → vid ≠ 256 → vid ≠ 384 → vid ≠ 512 →
    exec (.describe vid) s = .next (s.rejected .unsupportedVariant)

/-- R106: DESCRIBE, INIT and HASH are rejected with `UnsupportedVariant` exactly when `VID` is none of the four. -/
def Obligations.UnsupportedVariantExactly : Prop :=
  ∀ (vid : BitVec 16) (salt : Option SaltOperand) (key : Option (List Byte)) (data : List Byte) (s : State),
    (exec (.describe vid) s = .next (s.rejected .unsupportedVariant) ↔
      vid ≠ 224 ∧ vid ≠ 256 ∧ vid ≠ 384 ∧ vid ≠ 512) ∧
    (exec (.init vid salt key) s = .next (s.rejected .unsupportedVariant) ↔
      vid ≠ 224 ∧ vid ≠ 256 ∧ vid ≠ 384 ∧ vid ≠ 512) ∧
    (exec (.hash vid salt key data) s = .next (s.rejected .unsupportedVariant) ↔
      vid ≠ 224 ∧ vid ≠ 256 ∧ vid ≠ 384 ∧ vid ≠ 512)

/-- R107: INIT and HASH of a supported variant are rejected with `InvalidKeyLength` exactly when a key is present and
its length is not `OUT`. -/
def Obligations.InvalidKeyLengthExactly : Prop :=
  ∀ (v : Variant) (salt : Option SaltOperand) (key : Option (List Byte)) (data : List Byte) (s : State),
    (exec (.init v.vid salt key) s = .next (s.rejected .invalidKeyLength) ↔ ∃ k, key = some k ∧ k.length ≠ v.out) ∧
    (exec (.hash v.vid salt key data) s = .next (s.rejected .invalidKeyLength) ↔
      ∃ k, key = some k ∧ k.length ≠ v.out)

/-- R108: `AlreadyFinalized` is answered, and the state kept, exactly for UPDATE and FINALIZE in `Finalized` and for
UPDATE, FINALIZE and RESET in `Void`; never for DESCRIBE, INIT and HASH. -/
def Obligations.AlreadyFinalizedExactly : Prop :=
  ∀ (i : Instr) (s : State), exec i s = .next (s.rejected .alreadyFinalized) ↔
    (((∃ data, i = .update data) ∨ i = .finalize) ∧ (s.st = .void ∨ s.st = .finalized)) ∨
    (i = .reset ∧ s.st = .void)

/-- R110: the status of every answered request is the first cause in the order of tests. -/
def Obligations.StatusFollowsThePriority : Prop :=
  ∀ (s t : State) (r : Request) (rest : List Input), s.inbox = .command r :: rest → step s = .next t →
    t.lastResponse.map (·.status) = some (priorityStatus r s.st)

/-! ### INIT, UPDATE, RESET (42_context_commands.md) -/

/-- R82: the words of INIT without key decode as such; it makes, in every state, the fresh context of the variant with
the salt operand or zeros; with an unsupported identifier it is rejected. -/
def Obligations.InitMakesAFreshContext : Prop :=
  (∀ (vid : BitVec 16) (salt : SaltOperand) (key data : List Byte),
    decode ⟨0x2000#16 ++ vid, salt, key, data⟩ = .instr (.init vid none none) ∧
    decode ⟨0x2100#16 ++ vid, salt, key, data⟩ = .instr (.init vid (some salt) none)) ∧
  (∀ (v : Variant) (salt : Option SaltOperand) (s : State), saltFits v.vid salt = true →
    ∃ S : SaltWords v,
      exec (.init v.vid salt none) s = .next (s.ended (.live v ⟨.fresh, iv v, S, 0, [], none⟩) .ok .none) ∧
      (salt = none → S = #v[0, 0, 0, 0]) ∧
      ∀ o, salt = some o → ∀ i : Fin 4, S[i.val].toNat = o[i.val].toNat) ∧
  ∀ (vid : BitVec 16) (salt : Option SaltOperand) (s : State), vid ≠ 224 → vid ≠ 256 → vid ≠ 384 → vid ≠ 512 →
    exec (.init vid salt none) s = .next (s.rejected .unsupportedVariant)

/-- INIT with a key of the right length starts from what `KEY_MIX` yields and absorbs its prefix, `T` counting its
bytes, and retains the key and the salt operand (42_context_commands.md section 2). Where the prefix would exceed
`MAXBITS` it is refused, which is the model's reading (assumption log 8). -/
def Obligations.KeyedInitStartsFromKeyMix : Prop :=
  ∀ (v : Variant) (salt : Option SaltOperand) (key : List Byte) (s : State), key.length = v.out →
    let km := config.keyMix v (saltWords v salt) key
    if 8 * km.prefixBytes.length ≤ v.maxBits then
      exec (.init v.vid salt (some key)) s = .next (s.ended (.live v (absorb config
        ⟨.fresh, km.h0, km.s0, 0, [], some ⟨key, saltWords v salt⟩⟩ km.prefixBytes)) .ok .none)
    else exec (.init v.vid salt (some key)) s = .refused .inputTooLong

/-- A salt operand of four zero words gives the same INIT and HASH as no salt operand (42_context_commands.md
section 2). -/
def Obligations.ZeroSaltIsNoSalt : Prop :=
  ∀ (vid : BitVec 16) (key : Option (List Byte)) (data : List Byte) (s : State),
    exec (.init vid (some #v[0, 0, 0, 0]) key) s = exec (.init vid none key) s ∧
    exec (.hash vid (some #v[0, 0, 0, 0]) key data) s = exec (.hash vid none key data) s

/-- R85: absorbing a byte, short of a full block and at one. -/
def Obligations.AbsorbByteEquations : Prop :=
  ∀ (cfg : Config) (v : Variant) (c : Ctx v) (x : Byte),
    (c.fill + 1 ≠ v.bs → absorbByte cfg c x = ⟨c.phase, c.h, c.s, c.t + 8, c.buf ++ [x], c.k⟩) ∧
    (c.fill + 1 = v.bs → absorbByte cfg c x =
      ⟨c.phase, compress cfg v c.h (loadBlock v (c.buf ++ [x])) c.s (c.t + 8) false, c.s, c.t + 8, [], c.k⟩)

/-- UPDATE with data in `Fresh` or `Accumulating`, within the contract on the total length, is accepted: the bytes are
absorbed in order, `ST` becomes `Accumulating`, `T` grows by eight for each byte, `FILL` advances modulo the block
size, and `VD`, `S`, `K` stay (42_context_commands.md section 3). -/
def Obligations.UpdateAbsorbsItsData : Prop :=
  ∀ (v : Variant) (c : Ctx v) (s : State) (data : List Byte), s.engine = .live v c → c.phase ≠ .finalized →
    c.fill < v.bs → data ≠ [] → c.t.toNat + 8 * data.length ≤ v.maxBits →
    ∃ c' : Ctx v, exec (.update data) s = .next (s.ended (.live v c') .ok .none) ∧
      c'.h = (data.foldl (absorbByte config) c).h ∧ c'.buf = (data.foldl (absorbByte config) c).buf ∧
      c'.phase = .accumulating ∧ c'.s = c.s ∧ c'.k = c.k ∧
      c'.t.toNat = c.t.toNat + 8 * data.length ∧ c'.fill = (c.fill + data.length) % v.bs

/-- R89: a zero-length UPDATE is accepted in `Fresh` and `Accumulating` and changes nothing, `ST` included; in `Void`
and `Finalized` it is rejected. -/
def Obligations.ZeroLengthUpdateIsANoOp : Prop :=
  ∀ s : State,
    (s.st = .fresh ∨ s.st = .accumulating → exec (.update []) s = .next (s.ended s.engine .ok .none)) ∧
    (s.st = .void ∨ s.st = .finalized → exec (.update []) s = .next (s.rejected .alreadyFinalized))

/-- Two UPDATEs in a row leave the engine as one UPDATE of the bytes of both, and the one is accepted exactly when the
others are (42_context_commands.md section 4, an inference the spec marks as derived). -/
def Obligations.SplitUpdateIsOneUpdate : Prop :=
  ∀ (x y : List Byte) (s : State), s.st = .fresh ∨ s.st = .accumulating →
    (∀ t, exec (.update (x ++ y)) s = .next t →
      ∃ t', execAll [.update x, .update y] s = .next t' ∧ t'.engine = t.engine) ∧
    (∀ t', execAll [.update x, .update y] s = .next t' →
      ∃ t, exec (.update (x ++ y)) s = .next t ∧ t.engine = t'.engine)

/-- The byte-serial loop of UPDATE equals the block-level form (42_context_commands.md section 3, an inference the
spec marks as derived), for every context whose buffer is not full. -/
def Obligations.BlockwiseUpdateEqualsByteLoop : Prop :=
  ∀ (cfg : Config) (v : Variant) (c : Ctx v) (data : List Byte), c.fill < v.bs →
    absorb cfg c data = absorbBlocks cfg c data

/-- The `j`-th compression UPDATE makes in a context (from 1) has the counter operand `8 * BS * j`, whatever bytes of
the same operand lie beyond the block (42_context_commands.md section 3). -/
def Obligations.InteriorCountersAreBlockMultiples : Prop :=
  ∀ (cfg : Config) (v : Variant) (salt : SaltWords v) (data : List Byte),
    (absorb cfg (freshCtx v salt) data).h = (List.range (data.length / v.bs)).foldl (fun h j =>
      compress cfg v h (loadBlock v ((data.drop (j * v.bs)).take v.bs)) salt
        (BitVec.ofNat v.tw (8 * v.bs * (j + 1))) false) (iv v)

/-- After any accepted UPDATEs from the start of an unkeyed context, `T` is eight times the number of bytes of all of
them, those in the buffer included, and `FILL` is that number modulo the block size (10_state.md section 5). -/
def Obligations.LengthCounterCountsEveryByte : Prop :=
  ∀ (v : Variant) (salt : SaltWords v) (chunks : List (List Byte)) (s t : State),
    s.engine = .live v (freshCtx v salt) → execAll (chunks.map .update) s = .next t →
    ∃ c : Ctx v, t.engine = .live v c ∧ c.t.toNat = 8 * chunks.flatten.length ∧
      c.fill = chunks.flatten.length % v.bs ∧
      c.t.toNat = 8 * (v.bs * (chunks.flatten.length / v.bs) + c.fill)

/-! ### FINALIZE (43_finalize.md) -/

/-- R99: an accepted FINALIZE leaves `ST = Finalized`, the final chain value in `H`, `FILL = 0`, and `T`, `S`, `VD`, `K`
unchanged; it answers the digest of that chain value. -/
def Obligations.FinalizeAnswersTheDigest : Prop :=
  ∀ (v : Variant) (c : Ctx v) (s : State), s.engine = .live v c → c.phase ≠ .finalized →
    let h' := (paddingBlocks c).foldl (fun h b => compress config v h (loadBlock v b.bytes) c.s b.t b.ff) c.h
    exec .finalize s = .next (s.ended (.live v ⟨.finalized, h', c.s, c.t, [], c.k⟩) .ok (.digest (digest v h')))

/-- R95: the counter operands of the padding blocks; also their final flags (43_finalize.md section 3). -/
def Obligations.PaddingCounterOperands : Prop :=
  ∀ (v : Variant) (c : Ctx v),
    (0 < c.fill → c.fill ≤ v.lim → (paddingBlocks c).map (fun b => (b.t, b.ff)) = [(c.t, true)]) ∧
    (c.fill = 0 → (paddingBlocks c).map (fun b => (b.t, b.ff)) = [(0, true)]) ∧
    (v.lim < c.fill → (paddingBlocks c).map (fun b => (b.t, b.ff)) = [(c.t, false), (0, true)])

/-- The padded tail of the message as one bit string: the buffered bytes, a 1 bit, the least number of 0 bits that
makes the length a multiple of the block, the discriminator bit, the length (43_finalize.md section 2, an inference
the spec marks as derived). -/
def Obligations.PaddingIsOneBitString : Prop :=
  ∀ (v : Variant) (c : Ctx v), c.fill < v.bs →
    ∃ k, k < 8 * v.bs ∧ (8 * c.fill + 1 + k + 1 + 8 * v.lb) % (8 * v.bs) = 0 ∧ (c.fill = v.lim → k = 6) ∧
      ((paddingBlocks c).flatMap (·.bytes)).flatMap byteBits =
        c.buf.flatMap byteBits ++ [true] ++ List.replicate k false ++ [v.long] ++ natBits (8 * v.lb) c.t.toNat ∧
      (paddingBlocks c).length = (if c.fill ≤ v.lim then 1 else 2) ∧
      ∀ b ∈ paddingBlocks c, b.bytes.length = v.bs

/-- The length field fills the last `LB` bytes of the last block, so `M[14]` and `M[15]` are the halves of `T`
(20_memory.md section 2, an inference the spec marks as derived). -/
def Obligations.LengthFieldIsTheLastTwoWords : Prop :=
  ∀ (v : Variant) (c : Ctx v), c.fill < v.bs →
    ∃ b, (paddingBlocks c).getLast? = some b ∧ b.bytes.length = v.bs ∧
      b.bytes.drop (v.bs - v.lb) = bytesBE c.t.toNat v.lb ∧
      (loadBlock v b.bytes)[14].toNat = c.t.toNat / 2 ^ v.w ∧ (loadBlock v b.bytes)[15].toNat = c.t.toNat % 2 ^ v.w

/-! ### RESET and HASH (42_context_commands.md section 4, 44_hash_oneshot.md) -/

/-- RESET of an existing context, in every phase: without key the fresh context of its variant and salt; with a key
the keyed start again, from the retained key and salt operand (42_context_commands.md section 4). The refusal of a
prefix beyond `MAXBITS` is the model's reading (assumption log 8). -/
def Obligations.ResetRebuildsTheStart : Prop :=
  ∀ (v : Variant) (c : Ctx v) (s : State), s.engine = .live v c →
    (c.k = none → exec .reset s = .next (s.ended (.live v ⟨.fresh, iv v, c.s, 0, [], none⟩) .ok .none)) ∧
    ∀ k, c.k = some k →
      let km := config.keyMix v k.salt k.bytes
      if 8 * km.prefixBytes.length ≤ v.maxBits then
        exec .reset s = .next (s.ended (.live v (absorb config
          ⟨.fresh, km.h0, km.s0, 0, [], some k⟩ km.prefixBytes)) .ok .none)
      else exec .reset s = .refused .inputTooLong

/-- `INIT ; UPDATE a ; RESET ; UPDATE b ; FINALIZE` answers the digest of `b` alone and leaves the same engine
(42_context_commands.md section 4, an inference the spec marks as derived). -/
def Obligations.ResetForgetsTheMessage : Prop :=
  ∀ (v : Variant) (salt : Option SaltOperand) (a b : List Byte) (s : State),
    8 * a.length ≤ v.maxBits → 8 * b.length ≤ v.maxBits →
    ∃ t t' d, execAll [.init v.vid salt none, .update a, .reset, .update b, .finalize] s = .next t ∧
      execAll [.init v.vid salt none, .update b, .finalize] s = .next t' ∧
      t.engine = t'.engine ∧ t.lastResponse = some ⟨.ok, .digest d⟩ ∧ t'.lastResponse = some ⟨.ok, .digest d⟩

/-- HASH without key, within the contract on the length, completes in every state: it answers the digest of the final
chain value and leaves a finalized context with `T` eight times the data's length (44_hash_oneshot.md section 1). -/
def Obligations.HashAnswersTheDigest : Prop :=
  ∀ (v : Variant) (salt : Option SaltOperand) (data : List Byte) (s : State), 8 * data.length ≤ v.maxBits →
    let h' := (finalizeCtx config (absorb config (freshCtx v (saltWords v salt)) data)).h
    exec (.hash v.vid salt none data) s = .next (s.ended (.live v
      ⟨.finalized, h', saltWords v salt, BitVec.ofNat v.tw (8 * data.length), [], none⟩) .ok (.digest (digest v h')))

/-- HASH is INIT, UPDATE, FINALIZE: for every supported variant, salt, key of the right length, data and state, the one
is accepted exactly when the sequence is, with the same digest and the same engine after (44_hash_oneshot.md
section 1, an inference the spec marks as derived). -/
def Obligations.HashIsInitUpdateFinalize : Prop :=
  ∀ (v : Variant) (salt : Option SaltOperand) (key : Option (List Byte)) (data : List Byte) (s : State),
    (∀ k, key = some k → k.length = v.out) →
    (∀ t, exec (.hash v.vid salt key data) s = .next t →
      ∃ t', execAll [.init v.vid salt key, .update data, .finalize] s = .next t' ∧
        t'.engine = t.engine ∧ t'.lastResponse = t.lastResponse) ∧
    (∀ t', execAll [.init v.vid salt key, .update data, .finalize] s = .next t' →
      ∃ t, exec (.hash v.vid salt key data) s = .next t ∧ t.engine = t'.engine ∧ t.lastResponse = t'.lastResponse)

/-- Chunk-boundary independence: HASH of `x1 || x2` gives the digest and the engine of INIT, UPDATE `x1`, UPDATE `x2`,
FINALIZE, for every split (44_hash_oneshot.md section 1, an inference the spec marks as derived). -/
def Obligations.ChunkBoundaryIndependence : Prop :=
  ∀ (v : Variant) (salt : Option SaltOperand) (key : Option (List Byte)) (x1 x2 : List Byte) (s : State),
    (∀ k, key = some k → k.length = v.out) →
    (∀ t, exec (.hash v.vid salt key (x1 ++ x2)) s = .next t →
      ∃ t', execAll [.init v.vid salt key, .update x1, .update x2, .finalize] s = .next t' ∧
        t'.engine = t.engine ∧ t'.lastResponse = t.lastResponse) ∧
    (∀ t', execAll [.init v.vid salt key, .update x1, .update x2, .finalize] s = .next t' →
      ∃ t, exec (.hash v.vid salt key (x1 ++ x2)) s = .next t ∧ t.engine = t'.engine ∧
        t.lastResponse = t'.lastResponse)

/-- INIT and HASH do not depend on the context the engine held: from any two states they answer alike, and where they
are accepted they leave the same engine (42_context_commands.md section 2, 44_hash_oneshot.md section 1). -/
def Obligations.NewContextForgetsTheOld : Prop :=
  ∀ (i : Instr) (s1 s2 t1 : State),
    ((∃ vid salt key, i = .init vid salt key) ∨ ∃ vid salt key data, i = .hash vid salt key data) →
    exec i s1 = .next t1 →
    ∃ t2, exec i s2 = .next t2 ∧ t2.lastResponse = t1.lastResponse ∧
      (t1.lastResponse.map (·.status) = some .ok → t2.engine = t1.engine)

/-! ### The whole machine (10_state.md section 5, 42_context_commands.md section 1) -/

/-- R81: the transition table of `ST`. An accepted command moves `ST` as its cell says; `AlreadyFinalized` is answered
exactly in the cells that say so; every rejection, `IllegalCommand` included, leaves all state as it was. -/
def Obligations.ContextStateTransitions : Prop :=
  (∀ (i : Instr) (s t : State), exec i s = .next t →
    ∃ r, t.outbox = s.outbox ++ [r] ∧
      (r.status = .ok → tableNext s.st i = some t.st) ∧
      (r.status = .alreadyFinalized ↔ tableNext s.st i = none) ∧
      (r.status ≠ .ok → t.engine = s.engine)) ∧
  (∀ (i : Instr) (s : State), tableNext s.st i = none → exec i s = .next (s.rejected .alreadyFinalized)) ∧
  ∀ (s : State) (r : Request) (rest : List Input) (why : IllegalReason), s.inbox = .command r :: rest →
    decode r = .illegal why → step s = .next (s.rejected .illegalCommand)

/-- The invariants of a context hold after reset, where there is none. -/
def Obligations.InvariantHoldsAtReset : Prop := State.reset.Inv

/-- Every step keeps the invariants: the fill below the block size and tied to the length counter, the counter a whole
number of bytes, a fresh unkeyed context as INIT made it, a retained key of `OUT` bytes with its salt (10_state.md
section 5). -/
def Obligations.StepKeepsTheInvariant : Prop := ∀ s t : State, s.Inv → step s = .next t → t.Inv

/-- A command has a next state exactly within the contract on the total length; outside it the model refuses by name
(42_context_commands.md section 3, 93 U3; for the prefix of `KEY_MIX` the reading is the model's, assumption log 8). -/
def Obligations.CommandsCompleteWithinContract : Prop :=
  ∀ (i : Instr) (s : State),
    (InContract i s → ∃ t, exec i s = .next t) ∧ (¬ InContract i s → exec i s = .refused .inputTooLong)

/-- Under the invariant only commands that bring input can leave the contract: UPDATE, HASH and keyed INIT. RESET,
keyed or not, always completes. -/
def Obligations.OnlyInputLeavesTheContract : Prop :=
  ∀ (i : Instr) (s : State) (e : Refusal), s.Inv → exec i s = .refused e →
    e = .inputTooLong ∧ ((∃ data, i = .update data) ∨ (∃ vid salt key, i = .init vid salt (some key)) ∨
      ∃ vid salt key data, i = .hash vid salt key data)

/-- Variant, salt and key are immutable for the life of a context: only INIT and HASH change them (10_state.md
sections 2 and 3). -/
def Obligations.VariantSaltKeyAreImmutable : Prop :=
  ∀ (i : Instr) (s t : State) (v : Variant) (c : Ctx v), s.Inv → s.engine = .live v c → exec i s = .next t →
    (∀ vid salt key, i ≠ .init vid salt key) → (∀ vid salt key data, i ≠ .hash vid salt key data) →
    ∃ c' : Ctx v, t.engine = .live v c' ∧ c'.s = c.s ∧ c'.k = c.k

/-- The values of data bytes and salt words select no outcome: inputs of the same length get the same status, `ST`,
`T` and `FILL` (60_exceptions.md section 3, 70_reset_and_hazards.md section 3). -/
def Obligations.InputValuesSelectNoOutcome : Prop :=
  (∀ (d d' : List Byte) (s t : State), d.length = d'.length → exec (.update d) s = .next t →
    ∃ t', exec (.update d') s = .next t' ∧ t'.lastResponse = t.lastResponse ∧ t'.st = t.st ∧
      t'.engine.counts = t.engine.counts) ∧
  ∀ (vid : BitVec 16) (o o' : SaltOperand) (d d' : List Byte) (s t : State), d.length = d'.length →
    exec (.hash vid (some o) none d) s = .next t →
    ∃ t', exec (.hash vid (some o') none d') s = .next t' ∧
      t'.lastResponse.map (·.status) = t.lastResponse.map (·.status) ∧ t'.st = t.st ∧
      t'.engine.counts = t.engine.counts
end

