-- ==== Sys2Proof/Laws/State.lean ====
section
/-! SUPPORT. One lemma per field per update of the state and of a context, all by definition. -/

namespace Sys2Proof.Machine

@[simp] theorem State.respond_engine (s : State) (e : Status) (p : Payload) : (s.respond e p).engine = s.engine := rfl
@[simp] theorem State.respond_inbox (s : State) (e : Status) (p : Payload) :
    (s.respond e p).inbox = s.inbox.tail := rfl
@[simp] theorem State.respond_outbox (s : State) (e : Status) (p : Payload) :
    (s.respond e p).outbox = s.outbox ++ [⟨e, p⟩] := rfl

@[simp] theorem State.reject_engine (s : State) (e : Status) : (s.reject e).engine = s.engine := rfl
@[simp] theorem State.reject_inbox (s : State) (e : Status) : (s.reject e).inbox = s.inbox.tail := rfl
@[simp] theorem State.reject_outbox (s : State) (e : Status) :
    (s.reject e).outbox = s.outbox ++ [⟨e, .none⟩] := rfl

@[simp] theorem State.setEngine_engine (s : State) (e : Engine) : (s.setEngine e).engine = e := rfl
@[simp] theorem State.setEngine_inbox (s : State) (e : Engine) : (s.setEngine e).inbox = s.inbox := rfl
@[simp] theorem State.setEngine_outbox (s : State) (e : Engine) : (s.setEngine e).outbox = s.outbox := rfl

@[simp] theorem State.accept_engine (s : State) (e : Engine) (p : Payload) : (s.accept e p).engine = e := rfl
@[simp] theorem State.accept_inbox (s : State) (e : Engine) (p : Payload) :
    (s.accept e p).inbox = s.inbox.tail := rfl
@[simp] theorem State.accept_outbox (s : State) (e : Engine) (p : Payload) :
    (s.accept e p).outbox = s.outbox ++ [⟨.ok, p⟩] := rfl

@[simp] theorem State.hardwareReset_engine (s : State) : s.hardwareReset.engine = .void := rfl
@[simp] theorem State.hardwareReset_inbox (s : State) : s.hardwareReset.inbox = s.inbox.tail := rfl
@[simp] theorem State.hardwareReset_outbox (s : State) : s.hardwareReset.outbox = s.outbox := rfl

@[simp] theorem State.present_engine (s : State) (r : Request) : (s.present r).engine = s.engine := rfl
@[simp] theorem State.present_inbox (s : State) (r : Request) : (s.present r).inbox = .command r :: s.inbox := rfl
@[simp] theorem State.present_outbox (s : State) (r : Request) : (s.present r).outbox = s.outbox := rfl

section
variable {v : Variant} (c : Ctx v) (x : Byte) (cfg : Config)

@[simp] theorem Ctx.push_phase : (c.push x).phase = c.phase := rfl
@[simp] theorem Ctx.push_h : (c.push x).h = c.h := rfl
@[simp] theorem Ctx.push_s : (c.push x).s = c.s := rfl
@[simp] theorem Ctx.push_t : (c.push x).t = c.t + 8 := rfl
@[simp] theorem Ctx.push_buf : (c.push x).buf = memWrite c.buf c.fill [x] := rfl
@[simp] theorem Ctx.push_k : (c.push x).k = c.k := rfl

@[simp] theorem Ctx.compressFull_phase : (c.compressFull cfg).phase = c.phase := rfl
@[simp] theorem Ctx.compressFull_h :
    (c.compressFull cfg).h = compress cfg v c.h (loadBlock v c.buf) c.s c.t false := rfl
@[simp] theorem Ctx.compressFull_s : (c.compressFull cfg).s = c.s := rfl
@[simp] theorem Ctx.compressFull_t : (c.compressFull cfg).t = c.t := rfl
@[simp] theorem Ctx.compressFull_buf : (c.compressFull cfg).buf = [] := rfl
@[simp] theorem Ctx.compressFull_k : (c.compressFull cfg).k = c.k := rfl

@[simp] theorem finalizeCtx_phase : (finalizeCtx cfg c).phase = .finalized := rfl
@[simp] theorem finalizeCtx_h :
    (finalizeCtx cfg c).h = (paddingBlocks c).foldl (compressPadding cfg c.s) c.h := rfl
@[simp] theorem finalizeCtx_s : (finalizeCtx cfg c).s = c.s := rfl
@[simp] theorem finalizeCtx_t : (finalizeCtx cfg c).t = c.t := rfl
@[simp] theorem finalizeCtx_buf : (finalizeCtx cfg c).buf = [] := rfl
@[simp] theorem finalizeCtx_k : (finalizeCtx cfg c).k = c.k := rfl

end

end Sys2Proof.Machine
end

