-- ==== Sys2Proof/Laws/Bytes.lean ====
section
/-! SUPPORT. The byte conversions and the buffer primitives: lengths, read after write, append at `FILL`. -/

namespace Sys2Proof.Machine

@[simp] theorem length_bytesBE (x n : Nat) : (bytesBE x n).length = n := by simp [bytesBE]

@[simp] theorem length_zeros (n : Nat) : (zeros n).length = n := by simp [zeros]

/-- A write at the end of the live cells appends (R32). -/
@[simp] theorem memWrite_end (buf x : List Byte) : memWrite buf buf.length x = buf ++ x := by
  simp [memWrite]

/-- A write at `FILL` appends (R32, R85). -/
@[simp] theorem memWrite_fill {v : Variant} (c : Ctx v) (x : List Byte) : memWrite c.buf c.fill x = c.buf ++ x :=
  memWrite_end _ _

/-- A write of a whole buffer's length at offset 0 replaces it (R92). -/
theorem memWrite_whole (buf x : List Byte) (h : buf.length ≤ x.length) : memWrite buf 0 x = x := by
  simp [memWrite, List.drop_eq_nil_of_le h]

theorem length_memRead (buf : List Byte) (a n : Nat) (h : a + n ≤ buf.length) : (memRead buf a n).length = n := by
  simp [memRead]; omega

/-- Reading what was just written gives it back. -/
theorem memRead_memWrite_same (buf x : List Byte) (a : Nat) (h : a ≤ buf.length) :
    memRead (memWrite buf a x) a x.length = x := by
  have ha : (buf.take a).length = a := by simp [h]
  simp [memRead, memWrite, ha]

/-- A write leaves every cell below its offset as it was. -/
theorem memWrite_below (buf x : List Byte) (a i : Nat) (h : a ≤ buf.length) (hi : i < a) :
    (memWrite buf a x)[i]? = buf[i]? := by
  have ha : i < (buf.take a).length := by simp; omega
  rw [memWrite, List.append_assoc, List.getElem?_append_left ha, List.getElem?_take, if_pos hi]

theorem length_pad1 (v : Variant) (f : Nat) (h : f ≤ v.lim) : (pad1 v f).length = v.lim + 1 - f := by
  unfold pad1
  split
  · simp; omega
  · simp; omega

@[simp] theorem length_pad2 (v : Variant) : (pad2 v).length = v.lim + 1 := by simp [pad2]

/-- `LIM + 1 + LB = BS` (R5): the pad and the length field fill the block. -/
theorem lim_add (v : Variant) : v.lim + 1 + v.lb = v.bs := by cases v <;> rfl

theorem bs_pos (v : Variant) : 0 < v.bs := by cases v <;> decide

/-- A block is sixteen words (R5). -/
theorem bs_eq (v : Variant) : v.bs = 16 * v.wordBytes := by cases v <;> rfl

theorem memory_wf_iff (v : Variant) (buf : List Byte) : Memory.wf v buf = true ↔ buf.length < v.bs := by
  simp [Memory.wf]

theorem memory_wf_nil (v : Variant) : Memory.wf v [] = true := by simp [memory_wf_iff, bs_pos]

end Sys2Proof.Machine
end

