-- ==== Sys2Proof/Laws/Absorb.lean ====
section
/-! SUPPORT. Absorbing bytes: what it changes and what it leaves, its composition, and what the accepted parts of
INIT, UPDATE and RESET can answer. -/

namespace Sys2Proof.Machine

section
variable (cfg : Config) {v : Variant} (c : Ctx v) (x : Byte) (data : List Byte)

/-- The two things absorbing a byte can do (R85). -/
theorem absorbByte_cases :
    (c.fill + 1 = v.bs ∧ absorbByte cfg c x = (c.push x).compressFull cfg) ∨
    (c.fill + 1 ≠ v.bs ∧ absorbByte cfg c x = c.push x) := by
  have hf : (c.push x).fill = c.fill + 1 := by simp [Ctx.fill]
  unfold absorbByte
  rw [hf]
  split
  · exact .inl ⟨‹_›, rfl⟩
  · exact .inr ⟨‹_›, rfl⟩

@[simp] theorem absorbByte_phase : (absorbByte cfg c x).phase = c.phase := by
  rcases absorbByte_cases cfg c x with ⟨-, h⟩ | ⟨-, h⟩ <;> simp [h]
@[simp] theorem absorbByte_s : (absorbByte cfg c x).s = c.s := by
  rcases absorbByte_cases cfg c x with ⟨-, h⟩ | ⟨-, h⟩ <;> simp [h]
@[simp] theorem absorbByte_k : (absorbByte cfg c x).k = c.k := by
  rcases absorbByte_cases cfg c x with ⟨-, h⟩ | ⟨-, h⟩ <;> simp [h]
@[simp] theorem absorbByte_t : (absorbByte cfg c x).t = c.t + 8 := by
  rcases absorbByte_cases cfg c x with ⟨-, h⟩ | ⟨-, h⟩ <;> simp [h]

/-- Absorbing a byte advances `FILL` modulo the block size (R16, R85). -/
theorem absorbByte_fill (h : c.fill < v.bs) : (absorbByte cfg c x).fill = (c.fill + 1) % v.bs := by
  rcases absorbByte_cases cfg c x with ⟨hf, he⟩ | ⟨hf, he⟩
  · rw [he, hf]; simp [Ctx.fill]
  · rw [he, Nat.mod_eq_of_lt (by omega)]; simp [Ctx.fill]

@[simp] theorem absorb_nil : absorb cfg c [] = c := rfl

@[simp] theorem absorb_cons : absorb cfg c (x :: data) = absorb cfg (absorbByte cfg c x) data := rfl

theorem absorb_append (d1 d2 : List Byte) : absorb cfg c (d1 ++ d2) = absorb cfg (absorb cfg c d1) d2 :=
  List.foldl_append

end

section
variable (cfg : Config) {v : Variant}

@[simp] theorem absorb_phase (data : List Byte) (c : Ctx v) : (absorb cfg c data).phase = c.phase := by
  induction data generalizing c with
  | nil => rfl
  | cons x xs ih => simp [ih]
@[simp] theorem absorb_s (data : List Byte) (c : Ctx v) : (absorb cfg c data).s = c.s := by
  induction data generalizing c with
  | nil => rfl
  | cons x xs ih => simp [ih]
@[simp] theorem absorb_k (data : List Byte) (c : Ctx v) : (absorb cfg c data).k = c.k := by
  induction data generalizing c with
  | nil => rfl
  | cons x xs ih => simp [ih]

/-- `T` counts eight bits for every byte (R14), modulo its width. -/
theorem absorb_t (data : List Byte) (c : Ctx v) :
    (absorb cfg c data).t = c.t + BitVec.ofNat v.tw (8 * data.length) := by
  induction data generalizing c with
  | nil => simp
  | cons x xs ih =>
    rw [absorb_cons, ih, absorbByte_t, List.length_cons, Nat.mul_add, Nat.mul_one, BitVec.ofNat_add, BitVec.add_assoc,
      BitVec.add_comm (BitVec.ofNat v.tw (8 * xs.length))]
    rfl

theorem fits_iff (c : Ctx v) (data : List Byte) :
    c.fits data = true ↔ c.t.toNat + 8 * data.length ≤ v.maxBits := decide_eq_true_iff

theorem maxBits_lt (v : Variant) : v.maxBits < 2 ^ v.tw := Nat.sub_one_lt (Nat.two_pow_pos _).ne'

/-- Within the contract of R84, `T` grows by exactly eight for every byte. -/
theorem absorb_t_toNat (data : List Byte) (c : Ctx v) (h : c.fits data = true) :
    (absorb cfg c data).t.toNat = c.t.toNat + 8 * data.length := by
  have h' : c.t.toNat + 8 * data.length < 2 ^ v.tw := ((fits_iff c data).1 h).trans_lt (maxBits_lt v)
  rw [absorb_t, BitVec.toNat_add, BitVec.toNat_ofNat, Nat.add_mod_mod, Nat.mod_eq_of_lt h']

/-- `FILL` after absorbing (R16, R19, R21). -/
theorem absorb_fill (data : List Byte) (c : Ctx v) (h : c.fill < v.bs) :
    (absorb cfg c data).fill = (c.fill + data.length) % v.bs := by
  induction data generalizing c with
  | nil => simp [Nat.mod_eq_of_lt h]
  | cons x xs ih =>
    have hx := absorbByte_fill cfg c x h
    have hlt : (absorbByte cfg c x).fill < v.bs := by rw [hx]; exact Nat.mod_lt _ (bs_pos v)
    rw [absorb_cons, ih _ hlt, hx, Nat.mod_add_mod, List.length_cons]
    congr 1
    omega

/-- Absorbing keeps the form of the block buffer (R19). -/
theorem absorb_memory_wf (data : List Byte) (c : Ctx v) (h : Memory.wf v c.buf = true) :
    Memory.wf v (absorb cfg c data).buf = true := by
  rw [memory_wf_iff] at *
  exact (absorb_fill cfg data c h).trans_lt (Nat.mod_lt _ (bs_pos v))

/-- What the accepted part of UPDATE can answer (R84, R89). -/
theorem updateCtx_cases {c c' : Ctx v} {data : List Byte} (h : updateCtx cfg c data = some c') :
    (data = [] ∧ c' = c) ∨
    (data ≠ [] ∧ c.fits data = true ∧ c' = { absorb cfg c data with phase := .accumulating }) := by
  unfold updateCtx at h
  split at h
  · exact .inl ⟨‹_›, (Option.some.inj h).symm⟩
  · split at h
    · exact .inr ⟨‹_›, ‹_›, (Option.some.inj h).symm⟩
    · cases h

/-- What the accepted part of keyed INIT can answer (R83). -/
theorem keyedCtx_cases {salt : SaltWords v} {key : List Byte} {c : Ctx v} (h : keyedCtx cfg v salt key = some c) :
    (keyedStart cfg v salt key).fits (cfg.keyMix v salt key).prefixBytes = true ∧
    c = absorb cfg (keyedStart cfg v salt key) (cfg.keyMix v salt key).prefixBytes := by
  unfold keyedCtx at h
  split at h
  · exact ⟨‹_›, (Option.some.inj h).symm⟩
  · cases h

/-- What the accepted part of RESET can answer (R88). -/
theorem resetCtx_cases {c c' : Ctx v} (h : resetCtx cfg c = some c') :
    (c.k = none ∧ c' = freshCtx v c.s) ∨ (∃ k, c.k = some k ∧ keyedCtx cfg v k.salt k.bytes = some c') := by
  unfold resetCtx at h
  split at h
  · refine .inl ⟨‹_›, ?_⟩
    rw [← Option.some.inj h, freshCtx, ‹c.k = none›]
  · exact .inr ⟨_, ‹_›, h⟩

/-- UPDATE keeps the form of the block buffer (R19). -/
theorem updateCtx_memory_wf {c c' : Ctx v} {data : List Byte} (hc : Memory.wf v c.buf = true)
    (h : updateCtx cfg c data = some c') : Memory.wf v c'.buf = true := by
  rcases updateCtx_cases cfg h with ⟨-, rfl⟩ | ⟨-, -, rfl⟩
  · exact hc
  · exact absorb_memory_wf cfg data c hc

/-- INIT leaves a buffer of the required form (R19). -/
theorem createCtx_memory_wf {salt : SaltWords v} {key : Option (List Byte)} {c : Ctx v}
    (h : createCtx cfg v salt key = some c) : Memory.wf v c.buf = true := by
  cases key with
  | none => rw [← Option.some.inj h]; exact memory_wf_nil v
  | some key => rw [(keyedCtx_cases cfg h).2]; exact absorb_memory_wf cfg _ _ (memory_wf_nil v)

/-- RESET leaves a buffer of the required form (R19). -/
theorem resetCtx_memory_wf {c c' : Ctx v} (h : resetCtx cfg c = some c') : Memory.wf v c'.buf = true := by
  rcases resetCtx_cases cfg h with ⟨-, rfl⟩ | ⟨k, -, hk⟩
  · exact memory_wf_nil v
  · exact createCtx_memory_wf cfg (key := some k.bytes) hk

/-- FINALIZE leaves an empty buffer, of the required form (R19, R99). -/
theorem finalizeCtx_memory_wf (c : Ctx v) : Memory.wf v (finalizeCtx cfg c).buf = true := memory_wf_nil v

end

end Sys2Proof.Machine
end

