-- ==== Sys2Proof/Laws/Compress.lean ====
section
/-! SUPPORT. The compression datapath: what each of the three updates of a mixing step writes and leaves. -/

namespace Sys2Proof.Machine

variable {v : Variant} (vv : WorkingVector v) (a b j : Fin 16)

/-- `V[a] <- V[a] + V[b] + x` writes `V[a]` alone (R66). -/
theorem addInto3_get (x : Word v) : (addInto3 vv a b x)[j] = if a = j then vv[a] + vv[b] + x else vv[j] := by
  simp [addInto3, Vector.getElem_set, Fin.ext_iff]

/-- `V[a] <- V[a] + V[b]` writes `V[a]` alone (R66). -/
theorem addInto2_get : (addInto2 vv a b)[j] = if a = j then vv[a] + vv[b] else vv[j] := by
  simp [addInto2, Vector.getElem_set, Fin.ext_iff]

/-- `V[a] <- rotr_W(V[a] ^ V[b], n)` writes `V[a]` alone (R66). -/
theorem xorRot_get (n : Nat) : (xorRot vv a b n)[j] = if a = j then rotr (vv[a] ^^^ vv[b]) n else vv[j] := by
  simp [xorRot, Vector.getElem_set, Fin.ext_iff]

/-- A right rotation by less than the width is the bit vector's own rotation (00_scope.md section 6.2). -/
theorem rotr_eq {w : Nat} (x : BitVec w) (n : Nat) (h : n < w) : rotr x n = x.rotateRight n := by
  simp [rotr, BitVec.rotateRight, BitVec.rotateRightAux, Nat.mod_eq_of_lt h]

/-- The injection at the end leaves the working vector as it is, `FINAL_TWIST` being zero (R7, R74). -/
theorem injectFinal_eq (ff : Bool) : injectFinal v ff vv = vv := by
  cases ff
  · rfl
  · ext i hi
    simp [injectFinal, finalTwist]

end Sys2Proof.Machine
end

