-- ==== Sys2Proof/Laws/Exec.lean ====
section
/-! SUPPORT. Everything each command and each step can do, said once: if it answers a next state, one of the listed
cases holds. -/

namespace Sys2Proof.Machine

variable {s t : State}

/-- The checks of INIT and HASH (R110). -/
theorem checkOperands_cases (vid : BitVec 16) (key : Option (List Byte)) :
    (Variant.ofVid vid = none ∧ checkOperands vid key = .error .unsupportedVariant) ∨
    (∃ v, Variant.ofVid vid = some v ∧ keyLengthOk v key = false ∧ checkOperands vid key = .error .invalidKeyLength) ∨
    (∃ v, Variant.ofVid vid = some v ∧ keyLengthOk v key = true ∧ checkOperands vid key = .ok v) := by
  unfold checkOperands
  cases hv : Variant.ofVid vid with
  | none => exact .inl ⟨rfl, rfl⟩
  | some v => cases hk : keyLengthOk v key <;> simp [hk]

theorem execDescribe_cases {vid : BitVec 16} (h : execDescribe vid s = .next t) :
    t = s.reject .unsupportedVariant ∨
    ∃ v, Variant.ofVid vid = some v ∧ t = s.respond .ok (.descriptor v (descriptor config v)) := by
  unfold execDescribe at h
  split at h
  · cases h; exact .inl rfl
  · cases h; exact .inr ⟨_, ‹_›, rfl⟩

theorem execInit_cases {vid : BitVec 16} {salt : Option SaltOperand} {key : Option (List Byte)}
    (h : execInit vid salt key s = .next t) :
    (∃ e, checkOperands vid key = .error e ∧ t = s.reject e) ∨
    ∃ v c, checkOperands vid key = .ok v ∧ createCtx config v (saltWords v salt) key = some c ∧
      t = s.accept (.live v c) .none := by
  unfold execInit at h
  split at h
  · cases h; exact .inl ⟨_, ‹_›, rfl⟩
  · split at h
    · cases h
    · cases h; exact .inr ⟨_, _, ‹_›, ‹_›, rfl⟩

theorem execUpdate_cases {data : List Byte} (h : execUpdate data s = .next t) :
    ((s.engine = .void ∨ ∃ v c, s.engine = .live v c ∧ c.phase = .finalized) ∧ t = s.reject .alreadyFinalized) ∨
    ∃ v c c', s.engine = .live v c ∧ c.phase ≠ .finalized ∧ updateCtx config c data = some c' ∧
      t = s.accept (.live v c') .none := by
  unfold execUpdate at h
  split at h
  · cases h; exact .inl ⟨.inl ‹_›, rfl⟩
  · unfold updateLive at h
    split at h
    · cases h; exact .inl ⟨.inr ⟨_, _, ‹_›, ‹_›⟩, rfl⟩
    · split at h
      · cases h
      · cases h; exact .inr ⟨_, _, _, ‹_›, ‹_›, ‹_›, rfl⟩

theorem execFinalize_cases (h : execFinalize s = .next t) :
    ((s.engine = .void ∨ ∃ v c, s.engine = .live v c ∧ c.phase = .finalized) ∧ t = s.reject .alreadyFinalized) ∨
    ∃ v c, s.engine = .live v c ∧ c.phase ≠ .finalized ∧
      t = s.accept (.live v (finalizeCtx config c)) (.digest (digest v (finalizeCtx config c).h)) := by
  unfold execFinalize at h
  split at h
  · cases h; exact .inl ⟨.inl ‹_›, rfl⟩
  · unfold finalizeLive at h
    split at h
    · cases h; exact .inl ⟨.inr ⟨_, _, ‹_›, ‹_›⟩, rfl⟩
    · cases h; exact .inr ⟨_, _, ‹_›, ‹_›, rfl⟩

theorem execReset_cases (h : execReset s = .next t) :
    (s.engine = .void ∧ t = s.reject .alreadyFinalized) ∨
    ∃ v c c', s.engine = .live v c ∧ resetCtx config c = some c' ∧ t = s.accept (.live v c') .none := by
  unfold execReset at h
  split at h
  · cases h; exact .inl ⟨‹_›, rfl⟩
  · split at h
    · cases h
    · cases h; exact .inr ⟨_, _, _, ‹_›, ‹_›, rfl⟩

/-- The accepted part of HASH is the accepted parts of INIT, UPDATE and FINALIZE (R101). -/
theorem hashCtx_cases {cfg : Config} {v : Variant} {salt : SaltWords v} {key : Option (List Byte)}
    {data : List Byte} {c : Ctx v} (h : hashCtx cfg v salt key data = some c) :
    ∃ c1 c2, createCtx cfg v salt key = some c1 ∧ updateCtx cfg c1 data = some c2 ∧ c = finalizeCtx cfg c2 := by
  unfold hashCtx at h
  split at h
  · cases h
  · split at h
    · cases h
    · cases h; exact ⟨_, _, ‹_›, ‹_›, rfl⟩

theorem execHash_cases {vid : BitVec 16} {salt : Option SaltOperand} {key : Option (List Byte)} {data : List Byte}
    (h : execHash vid salt key data s = .next t) :
    (∃ e, checkOperands vid key = .error e ∧ t = s.reject e) ∨
    ∃ v c, checkOperands vid key = .ok v ∧ hashCtx config v (saltWords v salt) key data = some c ∧
      t = s.accept (.live v c) (.digest (digest v c.h)) := by
  unfold execHash at h
  split at h
  · cases h; exact .inl ⟨_, ‹_›, rfl⟩
  · split at h
    · cases h
    · cases h; exact .inr ⟨_, _, ‹_›, ‹_›, rfl⟩

/-- Everything one step can do (R38, R41, R125). -/
theorem step_cases (h : step s = .next t) :
    (s.inbox = [] ∧ t = s) ∨
    (∃ rest, s.inbox = .hardwareReset :: rest ∧ t = s.hardwareReset) ∨
    (∃ r rest why, s.inbox = .command r :: rest ∧ decode r = .illegal why ∧ t = s.reject .illegalCommand) ∨
    ∃ r rest i, s.inbox = .command r :: rest ∧ decode r = .instr i ∧ exec i s = .next t := by
  unfold step State.presented at h
  split at h
  · rename_i hp
    split at hp
    · cases h; exact .inl ⟨‹_›, rfl⟩
    · cases hp
    · split at hp <;> cases hp
  · rename_i hp
    split at hp
    · cases hp
    · cases h; exact .inr (.inl ⟨_, ‹_›, rfl⟩)
    · split at hp <;> cases hp
  · rename_i hp
    split at hp
    · cases hp
    · cases hp
    · split at hp
      · cases h; exact .inr (.inr (.inl ⟨_, _, _, ‹_›, ‹_›, rfl⟩))
      · cases hp
  · rename_i hp
    split at hp
    · cases hp
    · cases hp
    · split at hp
      · cases hp
      · cases hp; exact .inr (.inr (.inr ⟨_, _, _, ‹_›, ‹_›, h⟩))

end Sys2Proof.Machine
end

