-- ==== Sys2Proof/Laws/PerInstr.lean ====
section
/-! SUPPORT. Facts about every command as syntax, one lemma per constructor. Family `Fields`: in the word of a command
the `OPC` field is the command's and the reserved fields are zero (30_encoding.md R46). -/

namespace Sys2Proof

section
variable (opc : Nat) (k s : Bool) (vid : BitVec 16)

theorem cmdWord_toNat (h : opc < 16) :
    (cmdWord opc k s vid).toNat = opc * 2 ^ 28 + k.toNat * 2 ^ 25 + s.toNat * 2 ^ 24 + vid.toNat := by
  have hv := vid.isLt
  have hk := k.toNat_le
  have hs := s.toNat_le
  rw [cmdWord, BitVec.toNat_ofNat]
  omega

theorem cmdBits_eq (w : BitVec 32) (hi lo : Nat) : cmdBits w hi lo = w.toNat / 2 ^ lo % 2 ^ (hi - lo + 1) := by
  rw [cmdBits, Nat.shiftRight_eq_div_pow]

theorem cmdOpc_cmdWord (h : opc < 16) : cmdOpc (cmdWord opc k s vid) = opc := by
  have hv := vid.isLt
  have hk := k.toNat_le
  have hs := s.toNat_le
  rw [cmdOpc, cmdBits_eq, cmdWord_toNat _ _ _ _ h]
  omega

theorem cmdRsv1_cmdWord (h : opc < 16) : cmdRsv1 (cmdWord opc k s vid) = 0 := by
  have hv := vid.isLt
  have hk := k.toNat_le
  have hs := s.toNat_le
  rw [cmdRsv1, cmdBits_eq, cmdWord_toNat _ _ _ _ h]
  omega

theorem cmdRsv0_cmdWord (h : opc < 16) : cmdRsv0 (cmdWord opc k s vid) = 0 := by
  have hv := vid.isLt
  rw [cmdRsv0, cmdBits_eq, cmdWord_toNat _ _ _ _ h]
  omega

theorem cmdK_cmdWord (h : opc < 16) : cmdK (cmdWord opc k s vid) = k := by
  have hv := vid.isLt
  have hs := s.toNat_le
  rw [cmdK, cmdBits_eq, cmdWord_toNat _ _ _ _ h]
  have : (opc * 2 ^ 28 + k.toNat * 2 ^ 25 + s.toNat * 2 ^ 24 + vid.toNat) / 2 ^ 25 % 2 ^ (25 - 25 + 1) = k.toNat := by
    have hk := k.toNat_le
    omega
  rw [this]
  cases k <;> rfl

theorem cmdS_cmdWord (h : opc < 16) : cmdS (cmdWord opc k s vid) = s := by
  have hv := vid.isLt
  rw [cmdS, cmdBits_eq, cmdWord_toNat _ _ _ _ h]
  have : (opc * 2 ^ 28 + k.toNat * 2 ^ 25 + s.toNat * 2 ^ 24 + vid.toNat) / 2 ^ 24 % 2 ^ (24 - 24 + 1) = s.toNat := by
    have hs := s.toNat_le
    omega
  rw [this]
  cases s <;> rfl

theorem cmdVid_cmdWord (h : opc < 16) : cmdVid (cmdWord opc k s vid) = vid := by
  apply BitVec.eq_of_toNat_eq
  have hv := vid.isLt
  rw [cmdVid, cmdBits_eq, cmdWord_toNat _ _ _ _ h, BitVec.toNat_ofNat]
  omega

end

namespace Laws.Fields

/-- The operation code of a command (R46). -/
def opc : Instr → Nat
  | .describe _ => 1
  | .init _ _ _ => 2
  | .update _ => 3
  | .finalize => 4
  | .reset => 5
  | .hash _ _ _ _ => 6

/-- The word of the command has the command's `OPC` and zero reserved fields. -/
def Statement (i : Instr) : Prop :=
  cmdOpc (encode i).cmd = opc i ∧ cmdRsv1 (encode i).cmd = 0 ∧ cmdRsv0 (encode i).cmd = 0

theorem of_cmdWord (n : Nat) (k s : Bool) (vid : BitVec 16) (h : n < 16) :
    cmdOpc (cmdWord n k s vid) = n ∧ cmdRsv1 (cmdWord n k s vid) = 0 ∧ cmdRsv0 (cmdWord n k s vid) = 0 :=
  ⟨cmdOpc_cmdWord n k s vid h, cmdRsv1_cmdWord n k s vid h, cmdRsv0_cmdWord n k s vid h⟩

theorem describe (vid : BitVec 16) : Statement (.describe vid) := of_cmdWord 1 _ _ _ (by decide)

theorem init (vid : BitVec 16) (salt : Option SaltOperand) (key : Option (List Byte)) :
    Statement (.init vid salt key) := of_cmdWord 2 _ _ _ (by decide)

theorem update (data : List Byte) : Statement (.update data) := of_cmdWord 3 _ _ _ (by decide)

theorem finalize : Statement .finalize := of_cmdWord 4 _ _ _ (by decide)

theorem reset : Statement .reset := of_cmdWord 5 _ _ _ (by decide)

theorem hash (vid : BitVec 16) (salt : Option SaltOperand) (key : Option (List Byte)) (data : List Byte) :
    Statement (.hash vid salt key data) := of_cmdWord 6 _ _ _ (by decide)

end Laws.Fields

end Sys2Proof
end

