-- ==== Sys2Proof/Tests/Slice0.lean ====
section
/-! SUPPORT. Tests: expected results from 95_test_vectors.md, 30_encoding.md and 43_finalize.md, never from the model;
and, for every obligation with hypotheses, a concrete input that meets them all (`witness_` and the obligation). -/

namespace Sys2Proof.Tests

open Sys2Proof Sys2Proof.Machine

/-- `PAT(n)` (95_test_vectors.md). -/
def pat (n : Nat) : List Byte := (List.range n).map fun i => BitVec.ofNat 8 (i + 1)

/-- The ASCII text "abc". -/
def abc : List Byte := [0x61, 0x62, 0x63]

/-- The salts of 95_test_vectors.md section 6.2. -/
def salt32 : SaltOperand := #v[0x00010203, 0x04050607, 0x08090A0B, 0x0C0D0E0F]
def salt64 : SaltOperand := #v[0x0001020304050607, 0x08090A0B0C0D0E0F, 0x1011121314151617, 0x18191A1B1C1D1E1F]

/-- A request with no operands. -/
def req (w : BitVec 32) : Request := ⟨w, noSalt, [], []⟩

/-- The reset state with one request presented. -/
def present (r : Request) : State := ⟨.void, [.command r], []⟩

/-- An idle engine that holds a context. -/
def held {v : Variant} (c : Ctx v) : State := ⟨.live v c, [], []⟩

/-- A context by its phase, `T` and buffer, otherwise as INIT without key or salt makes it. -/
def ctx (v : Variant) (p : Phase) (t : Nat) (buf : List Byte) : Ctx v :=
  ⟨p, iv v, #v[0, 0, 0, 0], BitVec.ofNat v.tw t, buf, none⟩

/-- The next state, if there is one. -/
def nextOf : Host.Outcome State Fault Refusal → Option State
  | .next s => some s
  | .fault _ => none
  | .refused _ => none

theorem next_of {o : Host.Outcome State Fault Refusal} (h : (nextOf o).isSome = true) : ∃ t, o = .next t := by
  cases o with
  | next s => exact ⟨s, rfl⟩
  | fault r => cases h
  | refused r => cases h

/-- The status of the last response after an outcome. -/
def statusOf (o : Host.Outcome State Fault Refusal) : Option Status :=
  ((nextOf o).bind State.lastResponse).map (·.status)

/-- The digest of the last response after an outcome, as the number its bytes encode, and its length. -/
def digestOf (o : Host.Outcome State Fault Refusal) : Option (Nat × Nat) :=
  match (nextOf o).bind State.lastResponse with
  | some ⟨_, .digest b⟩ => some (beNat b, b.length)
  | _ => none

/-- `ST`, `VD`, `T`, `FILL` after an outcome. -/
def shapeOf (o : Host.Outcome State Fault Refusal) : Option (ContextState × Option Variant × Option (Nat × Nat)) :=
  (nextOf o).map fun s => (s.st, s.engine.vd, s.engine.counts)

/-- The words of `H` after an outcome, as numbers. -/
def chainOf (o : Host.Outcome State Fault Refusal) : Option (List Nat) :=
  (nextOf o).map fun s =>
    match s.engine with
    | .void => []
    | .live _ c => c.h.toList.map (·.toNat)

/-- The words of `S` after an outcome, as numbers. -/
def saltOf (o : Host.Outcome State Fault Refusal) : Option (List Nat) :=
  (nextOf o).map fun s =>
    match s.engine with
    | .void => []
    | .live _ c => c.s.toList.map (·.toNat)

/-! ### Well-formedness: each check refuses an ill-formed term -/

/-- A salt word of 33 bits is no word of a 32-bit variant (R48). -/
theorem test_wf_init_salt_too_wide :
    Instr.wellFormed (.init 256 (some #v[0, 0, 0, 0x100000000]) none) = false := by decide

theorem test_wf_hash_salt_too_wide :
    Instr.wellFormed (.hash 224 (some #v[0x100000000, 0, 0, 0]) none []) = false := by decide

/-- The widest salt words of both families are well formed, as is a key of a wrong length (R48, R107). -/
theorem test_wf_accepts :
    Instr.wellFormed (.init 256 (some #v[0xFFFFFFFF, 0, 0, 0]) (some [1])) = true ∧
    Instr.wellFormed (.hash 512 (some #v[0xFFFFFFFFFFFFFFFF, 0, 0, 0]) none abc) = true ∧
    (Instr.wellFormed (.describe 32) && Instr.wellFormed (.update abc) && Instr.wellFormed .finalize &&
      Instr.wellFormed .reset) = true := by decide

/-! ### Decoding (95_test_vectors.md section 7.1; the words are its own) -/

theorem test_decode_describe : decode (req 0x100000E0) = .instr (.describe 224) := by decide
theorem test_decode_init : decode ⟨0x23000200, salt64, abc, []⟩ = .instr (.init 512 (some salt64) (some abc)) := by
  decide
theorem test_decode_update : decode ⟨0x30000000, salt64, [], abc⟩ = .instr (.update abc) := by decide
theorem test_decode_finalize : decode (req 0x40000000) = .instr .finalize := by decide
theorem test_decode_reset : decode (req 0x50000000) = .instr .reset := by decide
theorem test_decode_hash : decode ⟨0x61000200, salt64, [1], abc⟩ = .instr (.hash 512 (some salt64) none abc) := by
  decide

/-- R53 (a): the operation codes 0, 7, 8 and F. -/
theorem test_decode_illegal_opcode :
    decode (req 0x00000000) = .illegal .opcode ∧ decode (req 0x70000000) = .illegal .opcode ∧
    decode (req 0x80000100) = .illegal .opcode ∧ decode (req 0xFFFFFFFF) = .illegal .opcode := by decide

/-- R53 (b): each of the two reserved fields, at both ends. -/
theorem test_decode_illegal_reserved :
    decode (req 0x24000100) = .illegal .reservedBits ∧ decode (req 0x28000100) = .illegal .reservedBits ∧
    decode (req 0x20010100) = .illegal .reservedBits ∧ decode (req 0x20800100) = .illegal .reservedBits := by decide

/-- R53 (c): `S` or `K` on a command that takes neither. -/
theorem test_decode_illegal_operand_flag :
    decode (req 0x11000100) = .illegal .operandFlag ∧ decode (req 0x31000000) = .illegal .operandFlag ∧
    decode (req 0x32000000) = .illegal .operandFlag ∧ decode (req 0x51000000) = .illegal .operandFlag := by decide

/-- R53 (d): a variant on a command that takes none. -/
theorem test_decode_illegal_variant_field :
    decode (req 0x30000001) = .illegal .variantField ∧ decode (req 0x40000100) = .illegal .variantField ∧
    decode (req 0x5000FFFF) = .illegal .variantField := by decide

/-- The table's numbering of a word (spec/opcode_table.json: HASH is 0x60000000 under its mask). -/
theorem test_table_word : decodeTableWord 32 0x60000000 = some (.hash 0 none none []) := by decide

/-- A table word placed after reset is what the next step runs: DESCRIBE 256 answers `OK` (E4). -/
theorem test_fetch_word : statusOf (step (State.reset.withFetchWord 32 0x10000100)) = some .ok := by decide

/-! ### One mixing step (95_test_vectors.md section 3) -/

/-- The four words of a working vector at `0, 4, 8, 12`. -/
def four {v : Variant} (vv : WorkingVector v) : List Nat := [vv[0].toNat, vv[4].toNat, vv[8].toNat, vv[12].toNat]

/-- Case G32-ones: every addition wraps. -/
theorem test_mix_g32_ones :
    four (mixG .blake256 (Vector.replicate 16 0xFFFFFFFF) 0 0 0 4 8 12 (Vector.replicate 16 0xFFFFFFFF)) =
      [0xFBFCFF48, 0x76A22FBB, 0xF4C8AF1C, 0xEBF3297A] := by decide +kernel

/-- Case G64-wrap: round 11 uses row 1, in which step 2 selects the words 9 and 15. -/
theorem test_mix_g64_wrap :
    four (mixG .blake512 ((Vector.replicate 16 0 |>.set 9 0x0A0A0A0A0A0A0A0A).set 15 0x1010101010101010) 11 2 0 4 8 12
      ((((Vector.replicate 16 0 |>.set 0 0x0123456789ABCDEF).set 4 0xFEDCBA9876543210).set 8
        0x0F1E2D3C4B5A6978).set 12 0x8796A5B4C3D2E1F0)) =
      [0x3869ADA5BCE115C4, 0x2A8DF6A6953F466C, 0x625053B542874AF2, 0x9AA280E608375214] := by decide +kernel

/-! ### Compression (95_test_vectors.md section 4) -/

/-- Trace T256-salt-hi: salted, both halves of the counter non-zero. -/
theorem test_compress_t256_salt_hi :
    (compress config .blake256
      #v[0x95F61998, 0x4498517A, 0xC3910C8D, 0x5AB00AC5, 0xAEF1AD80, 0x64FA9773, 0xE07C2654, 0xA41F32E6]
      (loadBlock .blake256 (pat 64)) #v[0x00010203, 0x04050607, 0x08090A0B, 0x0C0D0E0F] 0x100000200 false).toList =
      [0x85910D0F, 0x23BF1615, 0x6B754BAE, 0xFDC3F9B0, 0x54659236, 0x728CFCBC, 0x3F95CCCC, 0x62EFC0B0] := by
  decide +kernel

/-- Trace T512-salt-hi, with the final flag set: the result is the same (R74). -/
theorem test_compress_t512_salt_hi :
    (compress config .blake512
      #v[0x95F619980C4336F7, 0x4498517A7B3558C4, 0xC3910C8D016B07D4, 0x5AB00AC5A0E2C90E,
         0xAEF1AD8052197D2E, 0x64FA9773D4C193E0, 0xE07C265404BE4294, 0xA41F32E6EC81DE86]
      (loadBlock .blake512 (pat 128))
      #v[0x0001020304050607, 0x08090A0B0C0D0E0F, 0x1011121314151617, 0x18191A1B1C1D1E1F]
      0x10000000000000400 true).toList =
      [0x374BA789CDAD2322, 0x9283C6A9210CEED2, 0x11A3A89F4441F4A9, 0xC4F57173A7BB99D7,
       0x9BEC474DC58B8DFB, 0xF90F01FC8A0AAD20, 0xE42143FE9F4E7098, 0xB196BE34BC841DD2] := by decide +kernel

/-- The published digest of the empty message, BLAKE-256 with 14 rounds (section 2, pair TWEAK). -/
theorem test_published_256_empty_tweak :
    beNat (digest .blake256 (finalizeCtx configTweak (freshCtx .blake256 #v[0, 0, 0, 0])).h) =
      0x716f6e863f744b9ac22c97ec7b76ea5f5908bc5b2f67c61510bfc4751384ea7a := by decide +kernel

/-! ### Padding (95_test_vectors.md section 5) -/

/-- BLAKE-256, `PAT(55)`: the merged byte, one block with the counter 440. -/
theorem test_padding_merged :
    (paddingBlocks (ctx .blake256 .accumulating 440 (pat 55))).map (fun b => (beNat b.bytes, b.t.toNat, b.ff)) =
      [(0x0102030405060708090a0b0c0d0e0f101112131415161718191a1b1c1d1e1f202122232425262728292a2b2c2d2e2f30313233343536378100000000000001b8,
        440, true)] := by decide +kernel

/-- BLAKE-512, `PAT(112)`: two blocks, the second with the counter 0. -/
theorem test_padding_two_blocks :
    (paddingBlocks (ctx .blake512 .accumulating 896 (pat 112))).map (fun b => (b.bytes.length, b.t.toNat, b.ff)) =
      [(128, 896, false), (128, 0, true)] ∧
    ((paddingBlocks (ctx .blake512 .accumulating 896 (pat 112))).getLast?.map fun b => beNat b.bytes) =
      some 0x100000000000000000000000000000380 := by decide +kernel

/-! ### The commands (95_test_vectors.md sections 6, 7.2, 8) -/

/-- E5: DESCRIBE 32. -/
theorem test_describe_unsupported : statusOf (step (present (req 0x10000020))) = some .unsupportedVariant := by decide

/-- R51: the descriptor of BLAKE-384. -/
theorem test_describe_384 :
    (descriptor config .blake384).w = 64 ∧ (descriptor config .blake384).nr = 14 ∧
    (descriptor config .blake384).out = 48 ∧ (descriptor config .blake384).bs = 128 ∧
    (descriptor config .blake384).rot = #v[32, 25, 16, 11] ∧
    (descriptor config .blake384).iv[7] = 0x47B5481DBEFA4FA4 := by decide

/-- P2, first line: INIT 512 with a salt. -/
theorem test_init_salted :
    shapeOf (step (present ⟨0x21000200, salt64, [], []⟩)) = some (.fresh, some .blake512, some (0, 0)) ∧
    saltOf (step (present ⟨0x21000200, salt64, [], []⟩)) =
      some [0x0001020304050607, 0x08090A0B0C0D0E0F, 0x1011121314151617, 0x18191A1B1C1D1E1F] := by decide

/-- E10: INIT 224 with a key of 32 bytes; E11: INIT 255 with a key of 5 bytes. -/
theorem test_init_errors :
    statusOf (step (present ⟨0x220000E0, noSalt, zeros 32, []⟩)) = some .invalidKeyLength ∧
    statusOf (step (present ⟨0x220000FF, noSalt, zeros 5, []⟩)) = some .unsupportedVariant := by decide

/-- P5: an UPDATE of 72 zero bytes compresses one block and leaves eight bytes. -/
theorem test_update_over_a_block :
    shapeOf (exec (.update (zeros 72)) (held (ctx .blake256 .fresh 0 []))) =
      some (.accumulating, some .blake256, some (576, 8)) ∧
    chainOf (exec (.update (zeros 72)) (held (ctx .blake256 .fresh 0 []))) =
      some [0x60C0B511, 0xD1E86926, 0x69468911, 0x54A2BD20, 0xEC613A62, 0x72996744, 0x8C36C068, 0xD4917832] := by
  decide +kernel

/-- E1 and E15: UPDATE without a context, and of no data in a finalized one. -/
theorem test_update_rejected :
    statusOf (exec (.update [0x78]) State.reset) = some .alreadyFinalized ∧
    statusOf (exec (.update []) (held (ctx .blake256 .finalized 0 []))) = some .alreadyFinalized := by decide

/-- P3: FINALIZE of BLAKE-224 over `PAT(56)`, two padding blocks. -/
theorem test_finalize_two_blocks :
    digestOf (exec .finalize (held (ctx .blake224 .accumulating 448 (pat 56)))) =
      some (0x6acdc92e9203d36a7b42e9cd7b54009f98c3449a8db7d81d061143fc, 28) := by decide +kernel

/-- P5: FINALIZE on a block boundary keeps `T` and empties the buffer. -/
theorem test_finalize_boundary :
    shapeOf (exec .finalize (held (ctx .blake256 .accumulating 1024 []))) =
      some (.finalized, some .blake256, some (1024, 0)) := by decide +kernel

/-- P3, last line: RESET of a finalized BLAKE-384 context. -/
theorem test_reset_finalized :
    shapeOf (exec .reset (held (ctx .blake384 .finalized 0 []))) = some (.fresh, some .blake384, some (0, 0)) := by
  decide

/-- E3: RESET without a context. -/
theorem test_reset_void : statusOf (exec .reset State.reset) = some .alreadyFinalized := by decide

/-- Section 6.2: the salted digest of "abc", BLAKE-512. -/
theorem test_hash_salted_512 :
    digestOf (step (present ⟨0x61000200, salt64, [], abc⟩)) =
      some (0xcab9be4a799bca0a4519371d4991b30d25da63cf000c6c86d791dcf0340649e4c3bd0cf2e24a29a39ad962f92e28f968b0a14c52f476ce58c2d6ff900bcde903,
        64) := by decide +kernel

/-- E19, E20: a rejected HASH leaves the context untouched. -/
theorem test_hash_rejected :
    statusOf (exec (.hash 384 none (some (zeros 47)) abc) (held (ctx .blake256 .accumulating 24 abc))) =
      some .invalidKeyLength ∧
    shapeOf (exec (.hash 100 none none abc) (held (ctx .blake256 .accumulating 24 abc))) =
      some (.accumulating, some .blake256, some (24, 3)) := by decide

/-! ### Witnesses: the hypotheses of each obligation, met together -/

theorem witness_EncodeOfDecodeIsTheWord : decode (req 0x40000000) = .instr .finalize := by decide

theorem witness_IllegalCommandExactlyOffTheTable :
    (present (req 0x30000001)).inbox = .command (req 0x30000001) :: [] := rfl

/-- Two requests that differ in every operand the word does not use. -/
theorem witness_UnusedOperandsAreIgnored :
    ∃ r r' : Request, r ≠ r' ∧ r.cmd = r'.cmd ∧ (r.cmd.extractLsb' 24 1 = 1 → r.salt = r'.salt) ∧
      (r.cmd.extractLsb' 25 1 = 1 → r.key = r'.key) ∧
      (r.cmd.extractLsb' 28 4 = 3 ∨ r.cmd.extractLsb' 28 4 = 6 → r.data = r'.data) :=
  ⟨⟨0x20000100, noSalt, [], []⟩, ⟨0x20000100, salt32, [1], abc⟩, by decide⟩

theorem witness_VariantIdentifiersAreTheFour : Variant.ofVid 512 = some .blake512 := by decide

theorem witness_HardwareResetVoidsTheEngine :
    (State.mk (.live .blake256 (ctx .blake256 .accumulating 24 abc)) [.hardwareReset] []).inbox =
      .hardwareReset :: [] := rfl

theorem witness_StepRunsTheDecodedCommand :
    (present (req 0x10000100)).inbox = .command (req 0x10000100) :: [] ∧
    decode (req 0x10000100) = .instr (.describe 256) ∧
    ∃ t, exec (.describe 256) (present (req 0x10000100)) = .next t := ⟨rfl, by decide, _, rfl⟩

theorem witness_IdleEngineHoldsItsState : (held (ctx .blake256 .accumulating 24 abc)).inbox = [] := rfl

theorem witness_EachCommandGetsOneResponse :
    (present (req 0x20000020)).inbox = .command (req 0x20000020) :: [] ∧
    ∃ t, step (present (req 0x20000020)) = .next t := ⟨rfl, _, rfl⟩

theorem witness_DeliveredResponsesStand : ∃ t, Sys2Proof.core.run 1 (present (req 0x10000100)) = .next t := ⟨_, rfl⟩

/-- Round 19, step 7: row 9, its last two entries. -/
theorem witness_MultiplexerSelectsBySigma :
    ∃ (row : Vector (Fin 16) 16) (j k : Fin 16), sigma[19 % 10]? = some row ∧ row[2 * (7 : Fin 8).val]? = some j ∧
      row[2 * (7 : Fin 8).val + 1]? = some k := ⟨_, _, _, rfl, rfl, rfl⟩

theorem witness_MixingStepEquations :
    (0 : Fin 16) ≠ 4 ∧ (0 : Fin 16) ≠ 8 ∧ (0 : Fin 16) ≠ 12 ∧ (4 : Fin 16) ≠ 8 ∧ (4 : Fin 16) ≠ 12 ∧
    (8 : Fin 16) ≠ 12 ∧ (15 : Fin 16) ≠ 0 ∧ (15 : Fin 16) ≠ 4 ∧ (15 : Fin 16) ≠ 8 ∧ (15 : Fin 16) ≠ 12 := by decide

theorem witness_DisjointMixingStepsCommute :
    ∀ p ∈ ([0, 4, 8, 12] : List (Fin 16)), ∀ q ∈ ([3, 7, 11, 15] : List (Fin 16)), p ≠ q := by decide

theorem witness_BigEndianRoundTrip : (255 : Nat) < 256 ^ 1 ∧ (0 : Nat) < 256 ^ 0 := by decide

theorem witness_BlockWordsAreBigEndian :
    (pat 64).length = Variant.blake224.bs ∧ (pat 128).length = Variant.blake512.bs := by decide +kernel

theorem witness_DigestIsTruncatedBigEndian : 27 < Variant.blake224.out ∧ 47 < Variant.blake384.out := by decide

theorem witness_DigestResponseHasOutBytes :
    ∃ (t : State) (b : List Byte), exec .finalize (held (ctx .blake256 .fresh 0 [])) = .next t ∧
      t.outbox = (held (ctx .blake256 .fresh 0 [])).outbox ++ [⟨.ok, .digest b⟩] :=
  ⟨(held (ctx .blake256 .fresh 0 [])).accept (.live .blake256 (finalizeCtx config (ctx .blake256 .fresh 0 [])))
    (.digest (digest .blake256 (finalizeCtx config (ctx .blake256 .fresh 0 [])).h)), _,
    by simp [exec, execFinalize, finalizeLive, held, ctx], rfl⟩

theorem witness_DescribeAnswersTheDescriptor :
    (225 : BitVec 16) ≠ 224 ∧ (225 : BitVec 16) ≠ 256 ∧ (225 : BitVec 16) ≠ 384 ∧ (225 : BitVec 16) ≠ 512 := by decide

theorem witness_StatusFollowsThePriority :
    (present (req 0x60000040)).inbox = .command (req 0x60000040) :: [] ∧
    ∃ t, step (present (req 0x60000040)) = .next t := ⟨rfl, _, rfl⟩

/-- No salt, and the widest words of both families. -/
theorem witness_InitMakesAFreshContext :
    saltFits Variant.blake256.vid none = true ∧
    saltFits Variant.blake256.vid (some #v[0xFFFFFFFF, 0, 0, 0xFFFFFFFF]) = true ∧
    saltFits Variant.blake384.vid (some #v[0xFFFFFFFFFFFFFFFF, 0, 0, 0]) = true ∧
    ((223 : BitVec 16) ≠ 224 ∧ (223 : BitVec 16) ≠ 256 ∧ (223 : BitVec 16) ≠ 384 ∧ (223 : BitVec 16) ≠ 512) := by
  decide

theorem witness_KeyedInitStartsFromKeyMix :
    (zeros 28).length = Variant.blake224.out ∧ (zeros 64).length = Variant.blake512.out := by decide

/-- An empty buffer, one cell short of a block, and the clause of the full block. -/
theorem witness_AbsorbByteEquations :
    (ctx .blake256 .fresh 0 []).fill + 1 ≠ Variant.blake256.bs ∧
    (ctx .blake256 .accumulating 496 (pat 62)).fill + 1 ≠ Variant.blake256.bs ∧
    (ctx .blake256 .accumulating 504 (pat 63)).fill + 1 = Variant.blake256.bs := by decide

/-- At the last length within the contract, with a full buffer but one. -/
theorem witness_UpdateAbsorbsItsData :
    (held (ctx .blake256 .accumulating (2 ^ 64 - 16) (zeros 62))).engine =
      .live .blake256 (ctx .blake256 .accumulating (2 ^ 64 - 16) (zeros 62)) ∧
    (ctx .blake256 .accumulating (2 ^ 64 - 16) (zeros 62)).phase ≠ .finalized ∧
    (ctx .blake256 .accumulating (2 ^ 64 - 16) (zeros 62)).fill < Variant.blake256.bs ∧ ([0x78] : List Byte) ≠ [] ∧
    (ctx .blake256 .accumulating (2 ^ 64 - 16) (zeros 62)).t.toNat + 8 * ([0x78] : List Byte).length ≤
      Variant.blake256.maxBits := ⟨rfl, by decide +kernel⟩

theorem witness_ZeroLengthUpdateIsANoOp :
    (held (ctx .blake256 .fresh 0 [])).st = .fresh ∧ (held (ctx .blake256 .accumulating 24 abc)).st = .accumulating ∧
    State.reset.st = .void ∧ (held (ctx .blake256 .finalized 24 [])).st = .finalized := by decide

theorem witness_SplitUpdateIsOneUpdate :
    (held (ctx .blake256 .fresh 0 [])).st = .fresh ∧ (held (ctx .blake256 .accumulating 24 abc)).st = .accumulating ∧
    (nextOf (exec (.update (abc ++ abc)) (held (ctx .blake256 .fresh 0 [])))).isSome = true ∧
    (nextOf (execAll [.update abc, .update abc] (held (ctx .blake256 .fresh 0 [])))).isSome = true := by
  decide +kernel

theorem witness_BlockwiseUpdateEqualsByteLoop :
    (ctx .blake256 .fresh 0 []).fill < Variant.blake256.bs ∧
    (ctx .blake512 .accumulating 1016 (pat 127)).fill < Variant.blake512.bs := by decide +kernel

theorem witness_LengthCounterCountsEveryByte :
    (held (freshCtx .blake256 #v[0, 0, 0, 0])).engine = .live .blake256 (freshCtx .blake256 #v[0, 0, 0, 0]) ∧
    (nextOf (execAll ([abc, [], zeros 61].map .update) (held (freshCtx .blake256 #v[0, 0, 0, 0])))).isSome = true :=
  ⟨rfl, by decide +kernel⟩

theorem witness_FinalizeAnswersTheDigest :
    (held (ctx .blake256 .fresh 0 [])).engine = .live .blake256 (ctx .blake256 .fresh 0 []) ∧
    (ctx .blake256 .fresh 0 []).phase ≠ .finalized := ⟨rfl, by decide⟩

/-- The fills 1, 55, 0, 56 and 63 of a block of 64 bytes. -/
theorem witness_PaddingCounterOperands :
    (0 < (ctx .blake256 .accumulating 8 (pat 1)).fill ∧
      (ctx .blake256 .accumulating 8 (pat 1)).fill ≤ Variant.blake256.lim) ∧
    (0 < (ctx .blake256 .accumulating 440 (pat 55)).fill ∧
      (ctx .blake256 .accumulating 440 (pat 55)).fill ≤ Variant.blake256.lim) ∧
    (ctx .blake256 .accumulating 512 []).fill = 0 ∧
    Variant.blake256.lim < (ctx .blake256 .accumulating 448 (pat 56)).fill ∧
    Variant.blake256.lim < (ctx .blake256 .accumulating 504 (pat 63)).fill := by decide

theorem witness_PaddingIsOneBitString :
    (ctx .blake256 .fresh 0 []).fill < Variant.blake256.bs ∧
    (ctx .blake256 .accumulating 504 (pat 63)).fill < Variant.blake256.bs := by decide

theorem witness_LengthFieldIsTheLastTwoWords :
    (ctx .blake512 .accumulating 1016 (pat 127)).fill < Variant.blake512.bs := by decide +kernel

/-- Without a key, and with one. -/
theorem witness_ResetRebuildsTheStart :
    (ctx .blake256 .finalized 24 []).k = none ∧
    ({ ctx .blake256 .finalized 24 [] with k := some ⟨zeros 32, #v[0, 0, 0, 0]⟩ } : Ctx .blake256).k =
      some ⟨zeros 32, #v[0, 0, 0, 0]⟩ := by decide

theorem witness_ResetForgetsTheMessage :
    8 * abc.length ≤ Variant.blake224.maxBits ∧ 8 * ([] : List Byte).length ≤ Variant.blake512.maxBits := by
  decide +kernel

theorem witness_HashAnswersTheDigest : 8 * (pat 65).length ≤ Variant.blake256.maxBits := by decide +kernel

/-- No key, and a key of the right length; the sequence and the one command both complete. -/
theorem witness_HashIsInitUpdateFinalize :
    (∀ k, (none : Option (List Byte)) = some k → k.length = Variant.blake256.out) ∧
    (∀ k, some (zeros 32) = some k → k.length = Variant.blake256.out) ∧
    (∃ t, exec (.hash 256 none none abc) State.reset = .next t) ∧
    ∃ t, execAll [.init 256 none none, .update abc, .finalize] State.reset = .next t :=
  ⟨by simp, by simp [Variant.out], next_of (by decide +kernel), next_of (by decide +kernel)⟩

theorem witness_ChunkBoundaryIndependence :
    (∀ k, (none : Option (List Byte)) = some k → k.length = Variant.blake256.out) ∧
    (∃ t, exec (.hash 256 none none (abc ++ abc)) State.reset = .next t) ∧
    ∃ t, execAll [.init 256 none none, .update abc, .update abc, .finalize] State.reset = .next t :=
  ⟨by simp, next_of (by decide +kernel), next_of (by decide +kernel)⟩

theorem witness_NewContextForgetsTheOld :
    (∃ vid salt key, Instr.init 224 none none = .init vid salt key) ∧
    ∃ t, exec (.init 224 none none) (held (ctx .blake256 .accumulating 24 abc)) = .next t :=
  ⟨⟨_, _, _, rfl⟩, _, rfl⟩

/-- The three clauses: a next state, a cell that answers `AlreadyFinalized`, and an illegal word. -/
theorem witness_ContextStateTransitions :
    (∃ t, exec .reset (held (ctx .blake256 .finalized 24 [])) = .next t) ∧
    tableNext (held (ctx .blake256 .finalized 24 [])).st .finalize = none ∧
    tableNext State.reset.st .reset = none ∧
    (present (req 0)).inbox = .command (req 0) :: [] ∧ decode (req 0) = .illegal .opcode :=
  ⟨⟨_, rfl⟩, by decide, by decide, rfl, by decide⟩

/-- The context of three absorbed bytes keeps the invariant. -/
theorem abc_inv : (ctx .blake256 .accumulating 24 abc).Wf := by
  constructor <;> simp [ctx, abc, Memory.wf, Variant.bs, Variant.tw, Variant.w, Ctx.fill]

/-- The context one byte short of the contract's limit keeps the invariant. -/
theorem limit_inv : (ctx .blake256 .accumulating (2 ^ 64 - 8) (zeros 63)).Wf := by
  constructor <;> simp [ctx, Memory.wf, Variant.bs, Variant.tw, Variant.w, Ctx.fill, zeros]

theorem witness_StepKeepsTheInvariant :
    (State.mk (.live .blake256 (ctx .blake256 .accumulating 24 abc)) [.command (req 0x40000000)] []).Inv ∧
    ∃ t, step (State.mk (.live .blake256 (ctx .blake256 .accumulating 24 abc)) [.command (req 0x40000000)] []) =
      .next t := ⟨abc_inv, next_of (by decide +kernel)⟩

/-- Within the contract, and one byte beyond it. -/
theorem witness_CommandsCompleteWithinContract :
    InContract .finalize State.reset ∧
    ¬ InContract (.update [0]) (held (ctx .blake256 .accumulating (2 ^ 64 - 8) (zeros 63))) := by
  refine ⟨trivial, fun h => ?_⟩
  have h' := h .blake256 _ rfl (by decide)
  revert h'
  decide +kernel

theorem witness_OnlyInputLeavesTheContract :
    (held (ctx .blake256 .accumulating (2 ^ 64 - 8) (zeros 63))).Inv ∧
    exec (.update [0]) (held (ctx .blake256 .accumulating (2 ^ 64 - 8) (zeros 63))) = .refused .inputTooLong :=
  ⟨limit_inv, rfl⟩

theorem witness_VariantSaltKeyAreImmutable :
    (held (ctx .blake256 .accumulating 24 abc)).Inv ∧
    (∃ t, exec .reset (held (ctx .blake256 .accumulating 24 abc)) = .next t) ∧
    (∀ vid salt key, Instr.reset ≠ .init vid salt key) ∧ ∀ vid salt key data, Instr.reset ≠ .hash vid salt key data :=
  ⟨abc_inv, ⟨_, rfl⟩, nofun, nofun⟩

theorem witness_InputValuesSelectNoOutcome :
    abc.length = (zeros 3).length ∧
    (∃ t, exec (.update abc) (held (ctx .blake256 .fresh 0 [])) = .next t) ∧
    ∃ t, exec (.hash 256 (some salt32) none abc) State.reset = .next t :=
  ⟨by decide, next_of (by decide +kernel), next_of (by decide +kernel)⟩

end Sys2Proof.Tests
end

section
/-! The parameters of the variants (00_scope.md R5). -/

namespace Sys2Proof.Machine

/-- Settles O8: for each variant the row of R5 is what the parameter functions compute, the derived columns `TW`, the
digest's words and `LIM` included. -/
theorem variantParameterTable : Obligations.VariantParameterTable := by
  intro v
  cases v with
  | blake224 => rfl
  | blake256 => rfl
  | blake384 => rfl
  | blake512 => rfl

end Sys2Proof.Machine
end

section
/-! Byte order (00_scope.md section 6.2, 20_memory.md section 2): the conversions between bytes and numbers one byte at
a time, the words of a block, and the bytes of a digest. -/

namespace Sys2Proof.Machine

/-- Byte `i` of an encoding, most significant first (R127), with the shift as a division. -/
theorem getElem?_bytesBE (x n i : Nat) (h : i < n) :
    (bytesBE x n)[i]? = some (BitVec.ofNat 8 (x / 256 ^ (n - 1 - i))) := by
  have hshift : x >>> (8 * (n - 1 - i)) = x / 256 ^ (n - 1 - i) := by
    rw [Nat.shiftRight_eq_div_pow, Nat.pow_mul]
  simp [bytesBE, h, hshift]

/-- The last byte of an encoding is the number's low byte; the bytes before it encode the rest of the number. -/
theorem bytesBE_succ (x n : Nat) : bytesBE x (n + 1) = bytesBE (x / 256) n ++ [BitVec.ofNat 8 x] := by
  have hinit : ∀ i ∈ List.range n, BitVec.ofNat 8 (x >>> (8 * (n - i))) =
      BitVec.ofNat 8 ((x / 256) >>> (8 * (n - 1 - i))) := by
    intro i hi
    have hsucc : n - i = (n - 1 - i) + 1 := by have := List.mem_range.1 hi; omega
    rw [hsucc, Nat.mul_succ, Nat.add_comm, Nat.shiftRight_add, Nat.shiftRight_eq_div_pow x 8]
  simpa [bytesBE, List.range_succ] using hinit

/-- A byte appended is a digit appended. -/
@[simp] theorem beNat_concat (b : List Byte) (x : Byte) : beNat (b ++ [x]) = beNat b * 256 + x.toNat := by
  simp [beNat]

theorem beNat_lt (b : List Byte) : beNat b < 256 ^ b.length := by
  induction b using List.reverseRecOn with
  | nil => simp [beNat]
  | append_singleton b x ih =>
    have hx := x.isLt
    rw [beNat_concat, List.length_append, List.length_singleton, Nat.pow_succ]
    omega

/-- Encoding the number of some bytes, in as many bytes, gives them back (00_scope.md section 6.2). -/
theorem bytesBE_beNat (b : List Byte) : bytesBE (beNat b) b.length = b := by
  induction b using List.reverseRecOn with
  | nil => rfl
  | append_singleton b x ih =>
    have hdiv : (beNat b * 256 + x.toNat) / 256 = beNat b := by have := x.isLt; omega
    have hlow : BitVec.ofNat 8 (beNat b * 256 + x.toNat) = x := by
      apply BitVec.eq_of_toNat_eq
      have := x.isLt
      rw [BitVec.toNat_ofNat]
      omega
    rw [beNat_concat, List.length_append, List.length_singleton, bytesBE_succ, hdiv, ih, hlow]

theorem wordBytes_pos (v : Variant) : 0 < v.wordBytes := by cases v <;> decide

/-- The numbers of `W / 8` bytes are those of `W` bits (R5). -/
theorem pow_wordBytes (v : Variant) : 256 ^ v.wordBytes = 2 ^ v.w := by cases v <;> rfl

/-- A digest is no longer than the chain value's eight words (R5, R97). -/
theorem out_le (v : Variant) : v.out ≤ 8 * v.wordBytes := by cases v <;> decide

/-- `be_W` of one word's bytes loses nothing (R127). -/
theorem beWord_toNat (v : Variant) (b : List Byte) (h : b.length = v.wordBytes) :
    (beWord v b).toNat = beNat b := by
  have hlt : beNat b < 2 ^ v.w := by rw [← pow_wordBytes, ← h]; exact beNat_lt b
  rw [beWord, BitVec.toNat_ofNat, Nat.mod_eq_of_lt hlt]

/-- `LOADBLOCK` as a table of `loadWord` (R33, R90). -/
theorem loadBlock_eq_ofFn (v : Variant) (b : List Byte) :
    loadBlock v b = Vector.ofFn fun k => loadWord v b k.val := rfl

/-- The bytes of a loaded word are those read from the buffer (R33). -/
theorem bytesBE_loadWord (v : Variant) (b : List Byte) (k : Nat)
    (h : k * v.wordBytes + v.wordBytes ≤ b.length) :
    bytesBE (loadWord v b k).toNat v.wordBytes = memRead b (k * v.wordBytes) v.wordBytes := by
  have hlen := length_memRead b _ _ h
  calc bytesBE (loadWord v b k).toNat v.wordBytes
      = bytesBE (beNat (memRead b (k * v.wordBytes) v.wordBytes)) v.wordBytes := by
        rw [loadWord, beWord_toNat v _ hlen]
    _ = memRead b (k * v.wordBytes) v.wordBytes := by
        simpa only [hlen] using bytesBE_beNat (memRead b (k * v.wordBytes) v.wordBytes)

/-- Settles O24: the word's `W / 8` bytes lie inside the block, and loading them loses nothing. -/
theorem blockWordsAreBigEndian : Obligations.BlockWordsAreBigEndian := by
  intro v b hb k
  have hin : k.val * v.wordBytes + v.wordBytes ≤ b.length := by
    rw [hb, bs_eq, ← Nat.succ_mul]
    exact Nat.mul_le_mul_right _ k.isLt
  rw [loadBlock_eq_ofFn, Vector.getElem_ofFn]
  exact bytesBE_loadWord v b k.val hin

/-- In a list of pieces of `m` elements each, element `i` is element `i % m` of piece `i / m`. -/
theorem getElem?_flatMap_of_length {α β : Type} {f : α → List β} {m : Nat} (hm : 0 < m)
    (hf : ∀ x, (f x).length = m) (l : List α) (i : Nat) :
    (l.flatMap f)[i]? = l[i / m]?.bind fun x => (f x)[i % m]? := by
  induction l generalizing i with
  | nil => simp
  | cons x xs ih =>
    rw [List.flatMap_cons]
    by_cases hi : i < m
    · rw [List.getElem?_append_left (by rw [hf]; exact hi), Nat.div_eq_of_lt hi, Nat.mod_eq_of_lt hi]
      rfl
    · have hle : m ≤ i := Nat.le_of_not_lt hi
      rw [List.getElem?_append_right (by rw [hf]; exact hle), hf, ih, Nat.div_eq_sub_div hm hle,
        Nat.mod_eq_sub_mod hle, List.getElem?_cons_succ]

@[simp] theorem length_digest (v : Variant) (h : ChainValue v) : (digest v h).length = v.out := by
  have hwords : (h.toList.flatMap fun x => bytesBE x.toNat v.wordBytes).length = 8 * v.wordBytes := by
    simp only [List.length_flatMap, length_bytesBE, List.map_const', Vector.length_toList, List.sum_replicate,
      smul_eq_mul]
  rw [digest, List.length_take, hwords, Nat.min_eq_left (out_le v)]

/-- Byte `i` of the digest is byte `i mod (W/8)` of the encoding of word `i / (W/8)` (R35, R97). -/
theorem getElem?_digest (v : Variant) (h : ChainValue v) (i : Nat) (hi : i < v.out) :
    (digest v h)[i]? =
      (bytesBE (h.toList.getD (i / v.wordBytes) 0).toNat v.wordBytes)[i % v.wordBytes]? := by
  have hword : i / v.wordBytes < h.toList.length := by
    rw [Vector.length_toList]
    exact (Nat.div_lt_iff_lt_mul (wordBytes_pos v)).2 (hi.trans_le (out_le v))
  rw [digest, List.getElem?_take_of_lt hi,
    getElem?_flatMap_of_length (wordBytes_pos v) (fun _ => length_bytesBE _ _),
    List.getD_eq_getElem _ _ hword, List.getElem?_eq_getElem hword, Option.bind_some]

/-- Settles O25: the length is `OUT`, and each byte is found in its word by `getElem?_digest` and there by
`getElem?_bytesBE`. -/
theorem digestIsTruncatedBigEndian : Obligations.DigestIsTruncatedBigEndian := by
  intro v h
  refine ⟨length_digest v h, fun i hi => ?_⟩
  rw [getElem?_digest v h i hi]
  exact getElem?_bytesBE _ _ _ (Nat.mod_lt _ (wordBytes_pos v))

end Sys2Proof.Machine
end

section
/-! Responses (30_encoding.md R50): how a command can answer, and what a request's one response says. -/

namespace Sys2Proof.Machine

variable {s t : State} {r : Request} {rest : List Input}

/-- The commands whose response can have a payload (R50). -/
def MayAnswerPayload (i : Instr) : Prop :=
  (∃ vid, i = .describe vid) ∨ i = .finalize ∨ ∃ vid salt key data, i = .hash vid salt key data

/-- DESCRIBE accepts with the engine as it was (R57). -/
theorem State.respond_ok_eq_accept (s : State) (p : Payload) : s.respond .ok p = s.accept s.engine p := rfl

/-- A command that is answered rejects or accepts (R38, R105); only the commands of R50 accept with a payload. -/
theorem exec_rejects_or_accepts {i : Instr} (h : exec i s = .next t) :
    (∃ e, t = s.reject e) ∨ ∃ eng p, t = s.accept eng p ∧ (p ≠ .none → MayAnswerPayload i) := by
  cases i with
  | describe vid =>
    obtain ht | ⟨v, -, ht⟩ := execDescribe_cases h
    · exact .inl ⟨_, ht⟩
    · exact .inr ⟨_, _, ht.trans (s.respond_ok_eq_accept _), fun _ => .inl ⟨vid, rfl⟩⟩
  | init vid salt key =>
    obtain ⟨e, -, ht⟩ | ⟨v, c, -, -, ht⟩ := execInit_cases h
    · exact .inl ⟨e, ht⟩
    · exact .inr ⟨_, _, ht, fun hp => absurd rfl hp⟩
  | update data =>
    obtain ⟨-, ht⟩ | ⟨v, c, c', -, -, -, ht⟩ := execUpdate_cases h
    · exact .inl ⟨_, ht⟩
    · exact .inr ⟨_, _, ht, fun hp => absurd rfl hp⟩
  | finalize =>
    obtain ⟨-, ht⟩ | ⟨v, c, -, -, ht⟩ := execFinalize_cases h
    · exact .inl ⟨_, ht⟩
    · exact .inr ⟨_, _, ht, fun _ => .inr (.inl rfl)⟩
  | reset =>
    obtain ⟨-, ht⟩ | ⟨v, c, c', -, -, ht⟩ := execReset_cases h
    · exact .inl ⟨_, ht⟩
    · exact .inr ⟨_, _, ht, fun hp => absurd rfl hp⟩
  | hash vid salt key data =>
    obtain ⟨e, -, ht⟩ | ⟨v, c, -, -, ht⟩ := execHash_cases h
    · exact .inl ⟨e, ht⟩
    · exact .inr ⟨_, _, ht, fun _ => .inr (.inr ⟨vid, salt, key, data, rfl⟩)⟩

/-- With a request presented, a step is the rejection of a word off the table or the decoded command (R41, R54). -/
theorem step_command_cases (hin : s.inbox = .command r :: rest) (h : step s = .next t) :
    (∃ why, decode r = .illegal why ∧ t = s.reject .illegalCommand) ∨
    ∃ i, decode r = .instr i ∧ exec i s = .next t := by
  obtain ⟨hidle, -⟩ | ⟨_, hreset, -⟩ | ⟨_, _, why, hcmd, hdec, ht⟩ | ⟨_, _, i, hcmd, hdec, hexec⟩ := step_cases h
  · simp [hin] at hidle
  · simp [hin] at hreset
  · obtain ⟨rfl, -⟩ : r = _ ∧ rest = _ := by simpa [hin] using hcmd
    exact .inl ⟨why, hdec, ht⟩
  · obtain ⟨rfl, -⟩ : r = _ ∧ rest = _ := by simpa [hin] using hcmd
    exact .inr ⟨i, hdec, hexec⟩

/-- A request is answered by a rejection, or accepted with a payload only for the commands of R50. -/
theorem step_rejects_or_accepts (hin : s.inbox = .command r :: rest) (h : step s = .next t) :
    (∃ e, t = s.reject e) ∨
    ∃ eng p, t = s.accept eng p ∧ (p ≠ .none → ∃ i, decode r = .instr i ∧ MayAnswerPayload i) := by
  obtain ⟨_, -, ht⟩ | ⟨i, hdec, hexec⟩ := step_command_cases hin h
  · exact .inl ⟨_, ht⟩
  · obtain hrej | ⟨eng, p, ht, hp⟩ := exec_rejects_or_accepts hexec
    · exact .inl hrej
    · exact .inr ⟨eng, p, ht, fun hne => ⟨i, hdec, hp hne⟩⟩

/-- Settles O13: a rejection has no payload and keeps the engine, and an acceptance has status `OK`; both take the
request off the interface and add one response. -/
theorem eachCommandGetsOneResponse : Obligations.EachCommandGetsOneResponse := by
  refine ⟨by decide, fun s t r rest hin h => ?_⟩
  obtain ⟨e, rfl⟩ | ⟨eng, p, rfl, hp⟩ := step_rejects_or_accepts hin h
  · exact ⟨by simp [hin], ⟨e, .none⟩, rfl, fun _ => ⟨rfl, rfl⟩, fun hne => absurd rfl hne⟩
  · refine ⟨by simp [hin], ⟨.ok, p⟩, rfl, fun hne => absurd rfl hne, fun hne => ?_⟩
    obtain ⟨i, hdec, hi⟩ := hp hne
    rw [hdec]
    simpa [MayAnswerPayload] using hi

end Sys2Proof.Machine
end

section
/-! DESCRIBE (40_variant_descriptor.md R57): its word as R46 spells it, the lookup of its variant, and its answer. -/

namespace Sys2Proof.Machine

/-- The word of DESCRIBE is the halfword `0x1000` before `VID` (R46). -/
theorem append_vid_eq_cmdWord (vid : BitVec 16) : 0x1000#16 ++ vid = cmdWord 1 false false vid := by
  apply BitVec.eq_of_toNat_eq
  have hv : vid.toNat < 2 ^ 16 := vid.isLt
  rw [cmdWord_toNat _ _ _ _ (by decide), BitVec.toNat_append, ← Nat.shiftLeft_add_eq_or_of_lt hv, Nat.shiftLeft_eq]
  rfl

/-- A DESCRIBE word passes the four checks of R53, whatever operands the request has (R45). -/
theorem decode_cmdWord_describe (vid : BitVec 16) (salt : SaltOperand) (key data : List Byte) :
    decode ⟨cmdWord 1 false false vid, salt, key, data⟩ = .instr (.describe vid) := by
  have hopc : cmdOpc (cmdWord 1 false false vid) = 1 := cmdOpc_cmdWord _ _ _ _ (by decide)
  have hrsv1 : cmdRsv1 (cmdWord 1 false false vid) = 0 := cmdRsv1_cmdWord _ _ _ _ (by decide)
  have hrsv0 : cmdRsv0 (cmdWord 1 false false vid) = 0 := cmdRsv0_cmdWord _ _ _ _ (by decide)
  have hk : cmdK (cmdWord 1 false false vid) = false := cmdK_cmdWord _ _ _ _ (by decide)
  have hs : cmdS (cmdWord 1 false false vid) = false := cmdS_cmdWord _ _ _ _ (by decide)
  have hvid : cmdVid (cmdWord 1 false false vid) = vid := cmdVid_cmdWord _ _ _ _ (by decide)
  simp [decode, hopc, hrsv1, hrsv0, hk, hs, hvid]

/-- The identifier of a variant names it (R47). -/
@[simp] theorem ofVid_vid (v : Variant) : Variant.ofVid v.vid = some v := by cases v <;> rfl

/-- The unsupported identifiers are all but the four (R47). -/
theorem ofVid_eq_none_iff (vid : BitVec 16) :
    Variant.ofVid vid = none ↔ vid ≠ 224 ∧ vid ≠ 256 ∧ vid ≠ 384 ∧ vid ≠ 512 := by
  unfold Variant.ofVid
  split_ifs <;> simp_all

/-- A response without another change ends the command with the engine as it was (R50). -/
theorem State.respond_eq_ended (s : State) (status : Status) (payload : Payload) :
    s.respond status payload = s.ended s.engine status payload := rfl

/-- The rejection sequence is the rejected end of the command (R105). -/
theorem State.reject_eq_rejected (s : State) (e : Status) : s.reject e = s.rejected e := rfl

/-- DESCRIBE of a supported variant ends with its descriptor and the engine as it was (R57). -/
theorem exec_describe_vid (v : Variant) (s : State) :
    exec (.describe v.vid) s = .next (s.ended s.engine .ok (.descriptor v (descriptor config v))) := by
  simp only [exec, execDescribe, ofVid_vid, State.respond_eq_ended]

/-- DESCRIBE of any other identifier is rejected (R57, R106). -/
theorem exec_describe_unsupported {vid : BitVec 16} (h : Variant.ofVid vid = none) (s : State) :
    exec (.describe vid) s = .next (s.rejected .unsupportedVariant) := by
  simp only [exec, execDescribe, h, State.reject_eq_rejected]

/-- The fields of the descriptor (R51) lose nothing: each parameter of R5 and R6 and each rotation distance of R62 fits
in its 8 bits. -/
theorem descriptor_config_fields (v : Variant) :
    (descriptor config v).w.toNat = v.w ∧ (descriptor config v).nr.toNat = (if v.w = 32 then 10 else 14) ∧
    (descriptor config v).out.toNat = v.out ∧ (descriptor config v).bs.toNat = v.bs ∧
    (descriptor config v).rot = (if v.w = 32 then #v[16, 12, 8, 7] else #v[32, 25, 16, 11]) := by
  cases v with
  | blake224 => decide
  | blake256 => decide
  | blake384 => decide
  | blake512 => decide

/-- Settles O27: DESCRIBE looks at its identifier alone; the descriptor of the variant found is the witness, and its
tables are the ROMs themselves. -/
theorem describeAnswersTheDescriptor : Obligations.DescribeAnswersTheDescriptor := by
  refine ⟨fun vid salt key data => ?_, fun v s => ?_, fun vid s h224 h256 h384 h512 => ?_⟩
  · rw [append_vid_eq_cmdWord]
    exact decode_cmdWord_describe vid salt key data
  · obtain ⟨hw, hnr, hout, hbs, hrot⟩ := descriptor_config_fields v
    exact ⟨descriptor config v, exec_describe_vid v s, hw, hnr, hout, hbs, hrot, rfl, rfl⟩
  · exact exec_describe_unsupported ((ofVid_eq_none_iff vid).2 ⟨h224, h256, h384, h512⟩) s

end Sys2Proof.Machine
end

section
/-! The compression function (41_compress.md): what the multiplexer selects, what a mixing step writes, and the
working vector before, through and after the rounds. -/

namespace Sys2Proof.Machine

/-- Settles O15: the row found at `r % 10` is `sigmaRow r`, and its two entries are `selJ` and `selK`. -/
theorem multiplexerSelectsBySigma : Obligations.MultiplexerSelectsBySigma := by
  intro v m r i row j k hrow hj hk
  obtain rfl : sigmaRow r = row := Vector.getElem_eq_iff.2 hrow
  obtain rfl : selJ r i = j := Vector.getElem_eq_iff.2 hj
  obtain rfl : selK r i = k := Vector.getElem_eq_iff.2 hk
  rfl

section
variable {v : Variant} (a b c d : Fin 16) (x : Word v) (p q : Nat) (vv : WorkingVector v)

/-- Four lines of a mixing step (R66), with `x` added and the rotation distances `p` and `q`. -/
def mixHalf : WorkingVector v :=
  let vv := addInto3 vv a b x
  let vv := xorRot vv d a p
  let vv := addInto2 vv c d
  xorRot vv b c q

/-- The eight lines of a mixing step are the same four lines run twice (R66). -/
theorem mixG_eq_mixHalf (m : MessageWords v) (r : Nat) (i : Fin 8) :
    mixG v m r i a b c d vv = mixHalf a b c d (msel v m r i).2 (rot v)[2] (rot v)[3]
      (mixHalf a b c d (msel v m r i).1 (rot v)[0] (rot v)[1] vv) := rfl

variable {a b c d}

/-- What four lines of a mixing step write, each line reading the words written before it (R66). -/
theorem mixHalf_written (hab : a ≠ b) (hac : a ≠ c) (had : a ≠ d) (hbc : b ≠ c) (hbd : b ≠ d) (hcd : c ≠ d)
    (hp : p < v.w) (hq : q < v.w) :
    let out := mixHalf a b c d x p q vv
    out[a] = vv[a] + vv[b] + x ∧ out[d] = (vv[d] ^^^ out[a]).rotateRight p ∧ out[c] = vv[c] + out[d] ∧
      out[b] = (vv[b] ^^^ out[c]).rotateRight q := by
  simp only [mixHalf, addInto3_get, addInto2_get, xorRot_get, rotr_eq _ _ hp, rotr_eq _ _ hq, ↓reduceIte, hab, hac,
    had, hbc, hbd, hcd, hab.symm, hac.symm, had.symm, hbc.symm, hbd.symm, hcd.symm, and_self]

/-- Four lines of a mixing step leave every other word as it was (R66). -/
theorem mixHalf_frame {j : Fin 16} (ha : j ≠ a) (hb : j ≠ b) (hc : j ≠ c) (hd : j ≠ d) :
    (mixHalf a b c d x p q vv)[j] = vv[j] := by
  simp only [mixHalf, addInto3_get, addInto2_get, xorRot_get, if_neg ha.symm, if_neg hb.symm, if_neg hc.symm,
    if_neg hd.symm]

end

/-- The rotation distances of R62 by the width of the lane family. -/
theorem rot_eq (v : Variant) :
    rot v = #v[if v.w = 32 then 16 else 32, if v.w = 32 then 12 else 25, if v.w = 32 then 8 else 16,
      if v.w = 32 then 7 else 11] := by
  cases v with
  | blake224 => rfl
  | blake256 => rfl
  | blake384 => rfl
  | blake512 => rfl

/-- Every distance of R62 is less than the width. -/
theorem rot_lt (v : Variant) : ∀ i : Fin 4, (rot v)[i] < v.w := by
  cases v with
  | blake224 => decide
  | blake256 => decide
  | blake384 => decide
  | blake512 => decide

/-- Settles O17: the first four lines write the words the last four start from, and neither touches another word. -/
theorem mixingStepEquations : Obligations.MixingStepEquations := by
  intro v m r i a b c d vv hab hac had hbc hbd hcd n0 n1 n2 n3 xy a1 d1 c1 b1 a2 d2 c2 b2 out
  have hrot : rot v = #v[n0, n1, n2, n3] := rot_eq v
  have hlt : ∀ k : Fin 4, #v[n0, n1, n2, n3][k] < v.w := hrot ▸ rot_lt v
  let mid := mixHalf a b c d xy.1 n0 n1 vv
  have hout : out = mixHalf a b c d xy.2 n2 n3 mid := by
    simp only [out, mixG_eq_mixHalf, hrot]
    rfl
  obtain ⟨ha1, hd1, hc1, hb1⟩ := mixHalf_written xy.1 n0 n1 vv hab hac had hbc hbd hcd (hlt 0) (hlt 1)
  obtain ⟨ha2, hd2, hc2, hb2⟩ := mixHalf_written xy.2 n2 n3 mid hab hac had hbc hbd hcd (hlt 2) (hlt 3)
  have hma : mid[a] = a1 := ha1
  have hmd : mid[d] = d1 := by rw [hd1, hma]
  have hmc : mid[c] = c1 := by rw [hc1, hmd]
  have hmb : mid[b] = b1 := by rw [hb1, hmc]
  rw [← hout, hma, hmb] at ha2
  rw [← hout, hmd, ha2] at hd2
  rw [← hout, hmc, hd2] at hc2
  rw [← hout, hmb, hc2] at hb2
  refine ⟨ha2, hb2, hc2, hd2, fun j ha hb hc hd => ?_⟩
  rw [hout, mixHalf_frame _ _ _ _ ha hb hc hd]
  exact mixHalf_frame _ _ _ _ ha hb hc hd

/-- The low half of the counter operand as a number (R71). -/
theorem toNat_loHalf (v : Variant) (t : Counter v) : (loHalf v t).toNat = t.toNat % 2 ^ v.w :=
  BitVec.toNat_setWidth _ _

/-- The high half of the counter operand as a number (R71): a `TW`-bit number has no more than `W` bits above the
low half. -/
theorem toNat_hiHalf (v : Variant) (t : Counter v) : (hiHalf v t).toNat = t.toNat / 2 ^ v.w := by
  have ht : t.toNat < 2 ^ v.w * 2 ^ v.w := by rw [← pow_add, ← two_mul]; exact t.isLt
  rw [hiHalf, BitVec.toNat_setWidth, BitVec.toNat_ushiftRight, Nat.shiftRight_eq_div_pow,
    Nat.mod_eq_of_lt (Nat.div_lt_of_lt_mul ht)]

/-- The first half of the working vector is the chain value (R71). -/
theorem initV_chain (v : Variant) (h : ChainValue v) (s : SaltWords v) (t : Counter v) (i : Fin 8) :
    (initV v h s t)[i.val] = h[i.val] := by
  fin_cases i <;> rfl

/-- The third quarter of the working vector is the salt with the first four round constants (R71). -/
theorem initV_salt (v : Variant) (h : ChainValue v) (s : SaltWords v) (t : Counter v) (i : Fin 4) :
    (initV v h s t)[i.val + 8] = s[i.val] ^^^ (roundConstants v)[i.val] := by
  fin_cases i <;> rfl

/-- The last quarter of the working vector is the counter halves with the next four round constants (R71). -/
theorem initV_counter (v : Variant) (h : ChainValue v) (s : SaltWords v) (t : Counter v) :
    (initV v h s t)[12] = loHalf v t ^^^ (roundConstants v)[4] ∧
    (initV v h s t)[13] = loHalf v t ^^^ (roundConstants v)[5] ∧
    (initV v h s t)[14] = hiHalf v t ^^^ (roundConstants v)[6] ∧
    (initV v h s t)[15] = hiHalf v t ^^^ (roundConstants v)[7] := ⟨rfl, rfl, rfl, rfl⟩

/-- Settles O20, quarter by quarter, with the counter halves as numbers. -/
theorem workingVectorInitialisation : Obligations.WorkingVectorInitialisation := by
  intro v h s t vv rc
  obtain ⟨h12, h13, h14, h15⟩ := initV_counter v h s t
  refine ⟨initV_chain v h s t, initV_salt v h s t, ?_, ?_, ?_, ?_⟩
  · rw [h12, BitVec.toNat_xor, toNat_loHalf]
  · rw [h13, BitVec.toNat_xor, toNat_loHalf]
  · rw [h14, BitVec.toNat_xor, toNat_hiHalf]
  · rw [h15, BitVec.toNat_xor, toNat_hiHalf]

/-- One word of the feed-forward (R73). -/
theorem feedForward_getElem (v : Variant) (h : ChainValue v) (s : SaltWords v) (vv : WorkingVector v) (i : Fin 8) :
    (feedForward v h s vv)[i.val] =
      h[i.val] ^^^ s[i.val % 4]'(Nat.mod_lt _ (Nat.zero_lt_succ 3)) ^^^ vv[i.val] ^^^ vv[i.val + 8] := by
  fin_cases i <;> rfl

/-- Settles O21: a compression ends with the feed-forward of the working vector after the last round (R75). -/
theorem feedForwardOfEveryWord : Obligations.FeedForwardOfEveryWord := by
  intro cfg v h m s t ff i vv
  exact feedForward_getElem v h s vv i

/-- The round counts of this hardware by the width of the lane family (R5, R6). -/
theorem config_rounds (v : Variant) : config.rounds v = if v.w = 32 then 10 else 14 := by
  cases v with
  | blake224 => rfl
  | blake256 => rfl
  | blake384 => rfl
  | blake512 => rfl

/-- Rounds in increasing order from 0 are a left fold of `ROUND` over the round numbers (R72). -/
theorem rounds_eq_foldl (v : Variant) (m : MessageWords v) (n : Nat) (vv : WorkingVector v) :
    rounds v m n vv = (List.range n).foldl (fun vv r => mixRound v m r vv) vv := by
  induction n with
  | zero => rfl
  | succ n ih => rw [rounds, ih, List.range_succ, List.foldl_concat]

/-- Settles O22: the injection before the rounds changes nothing, and a round is its eight mixing steps by
definition. -/
theorem roundsRunInOrder : Obligations.RoundsRunInOrder := by
  refine ⟨fun v h m s t => ?_, fun v m n vv => ?_⟩
  · rw [compress, injectFinal_eq, config_rounds]
  · exact rounds_eq_foldl v m n vv

end Sys2Proof.Machine
end

section
/-! The context-state register and its transition table (42_context_commands.md R81): what each cell says, which cells
answer `AlreadyFinalized`, and that every answered command follows its cell. -/

namespace Sys2Proof.Machine

variable {s t : State} {v : Variant} {c c' : Ctx v} {i : Instr} {data : List Byte}

/-- `ST` of an engine that holds a context is the context's phase (R11). -/
theorem State.st_of_live (h : s.engine = .live v c) : s.st = c.phase.st := by
  rw [State.st, h, Engine.st]

theorem State.st_eq_void_iff : s.st = .void ↔ s.engine = .void := by
  cases he : s.engine with
  | void => simp [State.st, he, Engine.st]
  | live v c => cases hp : c.phase <;> simp [State.st_of_live he, hp, Phase.st]

theorem Phase.st_eq_finalized_iff (p : Phase) : p.st = .finalized ↔ p = .finalized := by
  cases p <;> simp [Phase.st]

/-- The engine takes no input: no context, or a finalized one (R84, R92). -/
theorem State.st_closed_iff : (s.st = .void ∨ s.st = .finalized) ↔
    (s.engine = .void ∨ ∃ v c, s.engine = .live v c ∧ c.phase = .finalized) := by
  rw [State.st_eq_void_iff]
  cases he : s.engine with
  | void => simp
  | live v c =>
    rw [State.st_of_live he, Phase.st_eq_finalized_iff]
    constructor
    · rintro (hvoid | hp)
      · cases hvoid
      · exact .inr ⟨v, c, rfl, hp⟩
    · rintro (hvoid | ⟨v', c', heq, hp⟩)
      · cases hvoid
      · cases heq
        exact .inr hp

/-- UPDATE is rejected where the engine takes no input (R84). -/
theorem exec_update_of_closed (h : s.st = .void ∨ s.st = .finalized) :
    exec (.update data) s = .next (s.rejected .alreadyFinalized) := by
  obtain he | ⟨v, c, he, hp⟩ := State.st_closed_iff.1 h
  · simp only [exec, execUpdate, he, State.reject_eq_rejected]
  · simp only [exec, execUpdate, he, updateLive, hp, ↓reduceIte, State.reject_eq_rejected]

/-- FINALIZE is rejected where the engine takes no input (R92). -/
theorem exec_finalize_of_closed (h : s.st = .void ∨ s.st = .finalized) :
    exec .finalize s = .next (s.rejected .alreadyFinalized) := by
  obtain he | ⟨v, c, he, hp⟩ := State.st_closed_iff.1 h
  · simp only [exec, execFinalize, he, State.reject_eq_rejected]
  · simp only [exec, execFinalize, he, finalizeLive, hp, ↓reduceIte, State.reject_eq_rejected]

/-- RESET is rejected where there is no context (R88). -/
theorem exec_reset_of_void (h : s.st = .void) : exec .reset s = .next (s.rejected .alreadyFinalized) := by
  simp only [exec, execReset, State.st_eq_void_iff.1 h, State.reject_eq_rejected]

/-- The cells `AlreadyFinalized` of the table (R81, R108). -/
theorem tableNext_eq_none_iff (st : ContextState) (i : Instr) : tableNext st i = none ↔
    (((∃ data, i = .update data) ∨ i = .finalize) ∧ (st = .void ∨ st = .finalized)) ∨ (i = .reset ∧ st = .void) := by
  cases i with
  | describe vid => simp [tableNext]
  | init vid salt key => simp [tableNext]
  | update data => cases st <;> simp [tableNext, ite_eq_iff]
  | finalize => cases st <;> simp [tableNext]
  | reset => cases st <;> simp [tableNext]
  | hash vid salt key data => simp [tableNext]

/-- In a cell `AlreadyFinalized` the command is rejected (R81). -/
theorem exec_of_tableNext_none (h : tableNext s.st i = none) : exec i s = .next (s.rejected .alreadyFinalized) := by
  obtain ⟨⟨data, rfl⟩ | rfl, hst⟩ | ⟨rfl, hst⟩ := (tableNext_eq_none_iff s.st i).1 h
  · exact exec_update_of_closed hst
  · exact exec_finalize_of_closed hst
  · exact exec_reset_of_void hst

/-- The cells of UPDATE in a context that takes input: data moves it to `Accumulating`, no data leaves it (R81, R89). -/
theorem tableNext_update_of_open {p : Phase} (hp : p ≠ .finalized) :
    tableNext p.st (.update data) = some (if data = [] then p.st else .accumulating) := by
  cases p with
  | fresh => exact (apply_ite some _ _ _).symm
  | accumulating => exact congrArg some (ite_self _).symm
  | finalized => exact absurd rfl hp

/-- The cell of FINALIZE in a context that takes input (R81). -/
theorem tableNext_finalize_of_open {p : Phase} (hp : p ≠ .finalized) :
    tableNext p.st .finalize = some .finalized := by
  cases p with
  | fresh => rfl
  | accumulating => rfl
  | finalized => exact absurd rfl hp

/-- The cell of RESET in any context (R81). -/
theorem tableNext_reset_of_live (p : Phase) : tableNext p.st .reset = some .fresh := by
  cases p <;> rfl

/-- INIT leaves a fresh context (R82, R83). -/
theorem createCtx_phase {cfg : Config} {salt : SaltWords v} {key : Option (List Byte)}
    (h : createCtx cfg v salt key = some c) : c.phase = .fresh := by
  cases key with
  | none => rw [← Option.some.inj h]; rfl
  | some key => rw [(keyedCtx_cases cfg h).2, absorb_phase]; rfl

/-- RESET leaves a fresh context (R88). -/
theorem resetCtx_phase {cfg : Config} (h : resetCtx cfg c = some c') : c'.phase = .fresh := by
  obtain ⟨-, rfl⟩ | ⟨k, -, hk⟩ := resetCtx_cases cfg h
  · rfl
  · exact createCtx_phase (key := some k.bytes) hk

/-- HASH leaves a finalized context (R101). -/
theorem hashCtx_phase {cfg : Config} {salt : SaltWords v} {key : Option (List Byte)}
    (h : hashCtx cfg v salt key data = some c) : c.phase = .finalized := by
  obtain ⟨c1, c2, -, -, rfl⟩ := hashCtx_cases h
  rfl

/-- An accepted UPDATE moves to `Accumulating` exactly when it has data (R84, R89). -/
theorem updateCtx_phase {cfg : Config} (h : updateCtx cfg c data = some c') :
    c'.phase.st = if data = [] then c.phase.st else .accumulating := by
  obtain ⟨hd, rfl⟩ | ⟨hd, -, rfl⟩ := updateCtx_cases cfg h
  · rw [if_pos hd]
  · rw [if_neg hd]; rfl

/-- The checks of INIT and HASH answer their own two errors only (R106, R107). -/
theorem checkOperands_error {vid : BitVec 16} {key : Option (List Byte)} {e : Status}
    (h : checkOperands vid key = .error e) : e = .unsupportedVariant ∨ e = .invalidKeyLength := by
  obtain ⟨-, hc⟩ | ⟨v, -, -, hc⟩ | ⟨v, -, -, hc⟩ := checkOperands_cases vid key
  · exact .inl (Except.error.inj (h.symm.trans hc))
  · exact .inr (Except.error.inj (h.symm.trans hc))
  · cases h.symm.trans hc

/-- How a command answered with the state `t` stands to its cell of the table (R81). -/
inductive FollowsTable (i : Instr) (s t : State) : Prop where
  /-- The cell is `AlreadyFinalized`, and so is the answer. -/
  | closed (hcell : tableNext s.st i = none) (ht : t = s.reject .alreadyFinalized)
  /-- The operands are rejected, in a cell that would accept the command. -/
  | badOperands (e : Status) (hcell : tableNext s.st i ≠ none)
      (he : e = .unsupportedVariant ∨ e = .invalidKeyLength) (ht : t = s.reject e)
  /-- The command is accepted, and the new engine has the `ST` of the cell. -/
  | accepted (e : Engine) (p : Payload) (hcell : tableNext s.st i = some e.st) (ht : t = s.accept e p)

/-- Every answered command follows its cell of the table (R81). -/
theorem exec_followsTable (h : exec i s = .next t) : FollowsTable i s t := by
  cases i with
  | describe vid =>
    obtain ht | ⟨v, -, ht⟩ := execDescribe_cases h
    · exact .badOperands _ nofun (.inl rfl) ht
    · exact .accepted s.engine _ rfl ht
  | init vid salt key =>
    obtain ⟨e, he, ht⟩ | ⟨v, c, -, hc, ht⟩ := execInit_cases h
    · exact .badOperands e nofun (checkOperands_error he) ht
    · exact .accepted _ _ (by rw [Engine.st, createCtx_phase hc]; rfl) ht
  | update data =>
    obtain ⟨hclosed, ht⟩ | ⟨v, c, c', he, hp, hc, ht⟩ := execUpdate_cases h
    · exact .closed ((tableNext_eq_none_iff _ _).2 (.inl ⟨.inl ⟨data, rfl⟩, State.st_closed_iff.2 hclosed⟩)) ht
    · refine .accepted _ _ ?_ ht
      rw [State.st_of_live he, tableNext_update_of_open hp, Engine.st, updateCtx_phase hc]
  | finalize =>
    obtain ⟨hclosed, ht⟩ | ⟨v, c, he, hp, ht⟩ := execFinalize_cases h
    · exact .closed ((tableNext_eq_none_iff _ _).2 (.inl ⟨.inr rfl, State.st_closed_iff.2 hclosed⟩)) ht
    · refine .accepted _ _ ?_ ht
      rw [State.st_of_live he, tableNext_finalize_of_open hp]
      rfl
  | reset =>
    obtain ⟨he, ht⟩ | ⟨v, c, c', he, hc, ht⟩ := execReset_cases h
    · exact .closed ((tableNext_eq_none_iff _ _).2 (.inr ⟨rfl, State.st_eq_void_iff.2 he⟩)) ht
    · refine .accepted _ _ ?_ ht
      rw [State.st_of_live he, tableNext_reset_of_live, Engine.st, resetCtx_phase hc]
      rfl
  | hash vid salt key data =>
    obtain ⟨e, he, ht⟩ | ⟨v, c, -, hc, ht⟩ := execHash_cases h
    · exact .badOperands e nofun (checkOperands_error he) ht
    · exact .accepted _ _ (by rw [Engine.st, hashCtx_phase hc]; rfl) ht

/-- A word that spells no command is rejected (R53, R109). -/
theorem step_of_illegal {r : Request} {rest : List Input} {why : IllegalReason}
    (hin : s.inbox = .command r :: rest) (hdec : decode r = .illegal why) :
    step s = .next (s.rejected .illegalCommand) := by
  have hpres : s.presented = .illegal := by simp only [State.presented, hin, hdec]
  rw [step, hpres, State.reject_eq_rejected]

/-- Settles O52: an answered command follows its cell, and in a cell `AlreadyFinalized` the command is answered so. -/
theorem contextStateTransitions : Obligations.ContextStateTransitions := by
  refine ⟨fun i s t h => ?_, fun i s => exec_of_tableNext_none, fun s r rest why => step_of_illegal⟩
  cases exec_followsTable h with
  | closed hcell ht =>
    subst ht
    exact ⟨_, rfl, nofun, iff_of_true rfl hcell, fun _ => rfl⟩
  | badOperands e hcell he ht =>
    subst ht
    have hok : e ≠ .ok := by rcases he with rfl | rfl <;> decide
    have hfin : e ≠ .alreadyFinalized := by rcases he with rfl | rfl <;> decide
    exact ⟨_, rfl, fun h => absurd h hok, iff_of_false hfin hcell, fun _ => rfl⟩
  | accepted e p hcell ht =>
    subst ht
    exact ⟨_, rfl, fun _ => hcell, iff_of_false nofun (by rw [hcell]; nofun), fun h => absurd rfl h⟩

/-- Settles O37: without data the accepted part of UPDATE is the identity, and a closed engine rejects UPDATE whatever
its data. -/
theorem zeroLengthUpdateIsANoOp : Obligations.ZeroLengthUpdateIsANoOp := by
  refine fun s => ⟨fun hst => ?_, exec_update_of_closed⟩
  cases he : s.engine with
  | void => simp [State.st_eq_void_iff.2 he] at hst
  | live v c =>
    have hp : c.phase ≠ .finalized := by
      rintro hp
      simp [State.st_of_live he, hp, Phase.st] at hst
    simp only [exec, execUpdate, he, updateLive, hp, ↓reduceIte, updateCtx]
    rfl

end Sys2Proof.Machine
end

section
/-! INIT without key and the absorption of a byte (42_context_commands.md R82, R85). -/

namespace Sys2Proof.Machine

/-- A command word is the halfword of its operation code and flags before `VID` (R46). -/
theorem halfword_append_vid {opc : Nat} {k s : Bool} {half : BitVec 16} (hopc : opc < 16)
    (hhalf : half.toNat = opc * 2 ^ 12 + k.toNat * 2 ^ 9 + s.toNat * 2 ^ 8) (vid : BitVec 16) :
    half ++ vid = cmdWord opc k s vid := by
  apply BitVec.eq_of_toNat_eq
  have hv : vid.toNat < 2 ^ 16 := vid.isLt
  rw [cmdWord_toNat _ _ _ _ hopc, BitVec.toNat_append, ← Nat.shiftLeft_add_eq_or_of_lt hv, Nat.shiftLeft_eq, hhalf]
  omega

/-- An INIT word passes the four checks of R53; its flags say which operands it has (R48). -/
theorem decode_cmdWord_init (k s : Bool) (vid : BitVec 16) (salt : SaltOperand) (key data : List Byte) :
    decode ⟨cmdWord 2 k s vid, salt, key, data⟩ =
      .instr (.init vid (if s then some salt else none) (if k then some key else none)) := by
  have hopc : cmdOpc (cmdWord 2 k s vid) = 2 := cmdOpc_cmdWord _ _ _ _ (by decide)
  have hrsv1 : cmdRsv1 (cmdWord 2 k s vid) = 0 := cmdRsv1_cmdWord _ _ _ _ (by decide)
  have hrsv0 : cmdRsv0 (cmdWord 2 k s vid) = 0 := cmdRsv0_cmdWord _ _ _ _ (by decide)
  have hk : cmdK (cmdWord 2 k s vid) = k := cmdK_cmdWord _ _ _ _ (by decide)
  have hs : cmdS (cmdWord 2 k s vid) = s := cmdS_cmdWord _ _ _ _ (by decide)
  have hvid : cmdVid (cmdWord 2 k s vid) = vid := cmdVid_cmdWord _ _ _ _ (by decide)
  simp [decode, Request.saltOperand, Request.keyOperand, hopc, hrsv1, hrsv0, hk, hs, hvid]

/-- INIT without key of a supported variant makes its fresh context, in every state (R82). -/
theorem exec_init_unkeyed (v : Variant) (salt : Option SaltOperand) (s : State) :
    exec (.init v.vid salt none) s = .next (s.ended (.live v (freshCtx v (saltWords v salt))) .ok .none) := by
  simp only [exec, execInit, checkOperands, ofVid_vid, keyLengthOk, ↓reduceIte, createCtx]
  rfl

/-- INIT of any other identifier is rejected (R82, R106). -/
theorem exec_init_unsupported {vid : BitVec 16} (h : Variant.ofVid vid = none) (salt : Option SaltOperand)
    (key : Option (List Byte)) (s : State) :
    exec (.init vid salt key) s = .next (s.rejected .unsupportedVariant) := by
  simp only [exec, execInit, checkOperands, h, State.reject_eq_rejected]

/-- The salt of the context is the operand word by word (R48, R82). -/
theorem saltWords_getElem (v : Variant) (o : SaltOperand) (i : Fin 4) :
    (saltWords v (some o))[i.val] = saltWord v o[i.val] := by
  fin_cases i <;> rfl

/-- A salt operand that fits the variant loses nothing (R48). -/
theorem saltWords_toNat {v : Variant} {o : SaltOperand} (h : saltFits v.vid (some o) = true) (i : Fin 4) :
    (saltWords v (some o))[i.val].toNat = o[i.val].toNat := by
  have hall : ∀ (j : Nat) (hj : j < 4), o[j].toNat < 2 ^ v.w := by simpa [saltFits] using h
  have hlt := hall i.val i.isLt
  rw [saltWords_getElem, saltWord, BitVec.toNat_setWidth, Nat.mod_eq_of_lt hlt]

/-- Settles O32: the words are those of opcode 2 with `K = 0`; the salt is the witness `saltWords`, which is the operand
itself where that fits the variant. -/
theorem initMakesAFreshContext : Obligations.InitMakesAFreshContext := by
  refine ⟨fun vid salt key data => ⟨?_, ?_⟩, fun v salt s hfits => ?_, fun vid salt s h224 h256 h384 h512 => ?_⟩
  · rw [halfword_append_vid (opc := 2) (k := false) (s := false) (by decide) (by decide)]
    exact decode_cmdWord_init false false vid salt key data
  · rw [halfword_append_vid (opc := 2) (k := false) (s := true) (by decide) (by decide)]
    exact decode_cmdWord_init false true vid salt key data
  · refine ⟨saltWords v salt, exec_init_unkeyed v salt s, ?_, ?_⟩
    · rintro rfl
      rfl
    · rintro o rfl
      exact saltWords_toNat hfits
  · exact exec_init_unsupported ((ofVid_eq_none_iff vid).2 ⟨h224, h256, h384, h512⟩) salt none s

/-- Settles O35: the byte goes to the end of the buffer, and a buffer filled by it is compressed with the counter that
has just counted it. -/
theorem absorbByteEquations : Obligations.AbsorbByteEquations := by
  refine fun cfg v c x => ⟨fun hne => ?_, fun hfull => ?_⟩
  · obtain ⟨hfull, -⟩ | ⟨-, he⟩ := absorbByte_cases cfg c x
    · exact absurd hfull hne
    · rw [he, Ctx.push, memWrite_fill]
  · obtain ⟨-, he⟩ | ⟨hne, -⟩ := absorbByte_cases cfg c x
    · rw [he, Ctx.compressFull, Ctx.push, memWrite_fill]
    · exact absurd hfull hne

end Sys2Proof.Machine
end

section
/-! FINALIZE: the accepted command, and the operands of the padding blocks (43_finalize.md R92 to R96, R99). -/

namespace Sys2Proof.Machine

variable {v : Variant} {c : Ctx v} {s : State}

/-- An accepted command ends with its new engine, status OK and its payload (R38, R50). -/
theorem State.accept_eq_ended (s : State) (e : Engine) (payload : Payload) :
    s.accept e payload = s.ended e .ok payload := rfl

/-- FINALIZE is accepted in a context that takes input (R92). -/
theorem exec_finalize_of_open (he : s.engine = .live v c) (hp : c.phase ≠ .finalized) :
    exec .finalize s = .next (s.ended (.live v (finalizeCtx config c)) .ok
      (.digest (digest v (finalizeCtx config c).h))) := by
  simp only [exec, execFinalize, he, finalizeLive, hp, ↓reduceIte, State.accept_eq_ended]

/-- Settles O42: FINALIZE leaves `finalizeCtx`, whose fields are the ones stated; the stated chain value is its fold of
`compressPadding` over the padding blocks. -/
theorem finalizeAnswersTheDigest : Obligations.FinalizeAnswersTheDigest :=
  fun _ _ _ he hp => exec_finalize_of_open he hp

/-- One padding block is compressed last, with the length as its counter if it holds message bytes (R93, R95, R96). -/
theorem paddingBlocks_operands_of_fill_le (h : c.fill ≤ v.lim) :
    (paddingBlocks c).map (fun b => (b.t, b.ff)) = [(if c.fill > 0 then c.t else 0, true)] := by
  rw [paddingBlocks, if_pos h]
  rfl

/-- Of two padding blocks the first has the length as its counter, the second counter 0 and the final flag (R94, R95,
R96). -/
theorem paddingBlocks_operands_of_lim_lt (h : v.lim < c.fill) :
    (paddingBlocks c).map (fun b => (b.t, b.ff)) = [(c.t, false), (0, true)] := by
  rw [paddingBlocks, if_neg (Nat.not_le_of_lt h)]
  rfl

/-- Settles O43: the fill selects one block, with or without message bytes, or two; an empty buffer needs only one. -/
theorem paddingCounterOperands : Obligations.PaddingCounterOperands := by
  refine fun v c => ⟨fun hpos hle => ?_, fun hzero => ?_, paddingBlocks_operands_of_lim_lt⟩
  · rw [paddingBlocks_operands_of_fill_le hle, if_pos hpos]
  · have hle : c.fill ≤ v.lim := hzero ▸ Nat.zero_le v.lim
    rw [paddingBlocks_operands_of_fill_le hle, if_neg hzero.not_gt]

end Sys2Proof.Machine
end

section
/-! The fields of a command word (30_encoding.md R46, R53): what the decoder reads of them, what the rows of the opcode
table ask of them, and that both leave the same words without a meaning. -/

namespace Sys2Proof

variable (w : BitVec 32)

/-- The fields in the spelling of core Lean, which has their laws; the statements use it too. -/
theorem cmdBits_eq_extractLsb' (hi lo : Nat) : cmdBits w hi lo = (w.extractLsb' lo (hi - lo + 1)).toNat := by
  rw [cmdBits, BitVec.extractLsb'_toNat]

theorem cmdOpc_eq : cmdOpc w = (w.extractLsb' 28 4).toNat := cmdBits_eq_extractLsb' w 31 28

theorem cmdRsv1_eq_zero_iff : cmdRsv1 w = 0 ↔ w.extractLsb' 26 2 = 0 := by
  rw [cmdRsv1, cmdBits_eq_extractLsb', ← BitVec.toNat_inj]
  rfl

theorem cmdRsv0_eq_zero_iff : cmdRsv0 w = 0 ↔ w.extractLsb' 16 8 = 0 := by
  rw [cmdRsv0, cmdBits_eq_extractLsb', ← BitVec.toNat_inj]
  rfl

theorem cmdK_eq_true_iff : cmdK w = true ↔ w.extractLsb' 25 1 = 1 := by
  rw [cmdK, cmdBits_eq_extractLsb', beq_iff_eq, ← BitVec.toNat_inj]
  rfl

theorem cmdS_eq_true_iff : cmdS w = true ↔ w.extractLsb' 24 1 = 1 := by
  rw [cmdS, cmdBits_eq_extractLsb', beq_iff_eq, ← BitVec.toNat_inj]
  rfl

theorem cmdVid_eq : cmdVid w = w.extractLsb' 0 16 := by
  rw [cmdVid, cmdBits_eq_extractLsb', BitVec.ofNat_toNat]
  rfl

/-- One of the four conditions of R53 holds. -/
def SpellsNoCommand : Prop :=
  ((w.extractLsb' 28 4).toNat = 0 ∨ 7 ≤ (w.extractLsb' 28 4).toNat) ∨
  (w.extractLsb' 26 2 ≠ 0 ∨ w.extractLsb' 16 8 ≠ 0) ∨
  ((w.extractLsb' 24 1 = 1 ∨ w.extractLsb' 25 1 = 1) ∧
    (w.extractLsb' 28 4).toNat ≠ 2 ∧ (w.extractLsb' 28 4).toNat ≠ 6) ∨
  (w.extractLsb' 0 16 ≠ 0 ∧ ((w.extractLsb' 28 4).toNat = 3 ∨
    (w.extractLsb' 28 4).toNat = 4 ∨ (w.extractLsb' 28 4).toNat = 5))

/-- Everything the decoder can answer (R46, R53, R54): a word under R53 is illegal, any other is the command of its
`OPC` with the operands in use. -/
theorem decode_cases (r : Request) :
    (SpellsNoCommand r.cmd ∧ ∃ why, decode r = .illegal why) ∨
    (¬SpellsNoCommand r.cmd ∧
      ((r.cmd.extractLsb' 28 4 = 1 ∧ decode r = .instr (.describe (r.cmd.extractLsb' 0 16))) ∨
      (r.cmd.extractLsb' 28 4 = 2 ∧
        decode r = .instr (.init (r.cmd.extractLsb' 0 16) r.saltOperand r.keyOperand)) ∨
      (r.cmd.extractLsb' 28 4 = 3 ∧ decode r = .instr (.update r.data)) ∨
      (r.cmd.extractLsb' 28 4 = 4 ∧ decode r = .instr .finalize) ∨
      (r.cmd.extractLsb' 28 4 = 5 ∧ decode r = .instr .reset) ∨
      (r.cmd.extractLsb' 28 4 = 6 ∧
        decode r = .instr (.hash (r.cmd.extractLsb' 0 16) r.saltOperand r.keyOperand r.data)))) := by
  unfold decode SpellsNoCommand
  simp only [cmdOpc_eq, ne_eq, cmdRsv1_eq_zero_iff, cmdRsv0_eq_zero_iff, cmdK_eq_true_iff, cmdS_eq_true_iff, cmdVid_eq]
  generalize r.cmd.extractLsb' 28 4 = opc
  split_ifs with ha hb hc hd h1 h2 h3 h4 h5
  · exact .inl ⟨.inl ha, _, rfl⟩
  · exact .inl ⟨.inr (.inl hb), _, rfl⟩
  · exact .inl ⟨.inr (.inr (.inl hc)), _, rfl⟩
  · exact .inl ⟨.inr (.inr (.inr hd)), _, rfl⟩
  all_goals refine .inr ⟨by simp only [ha, hb, hc, hd, or_self, not_false_eq_true], ?_⟩
  · exact .inl ⟨BitVec.eq_of_toNat_eq h1, rfl⟩
  · exact .inr (.inl ⟨BitVec.eq_of_toNat_eq h2, rfl⟩)
  · exact .inr (.inr (.inl ⟨BitVec.eq_of_toNat_eq h3, rfl⟩))
  · exact .inr (.inr (.inr (.inl ⟨BitVec.eq_of_toNat_eq h4, rfl⟩)))
  · exact .inr (.inr (.inr (.inr (.inl ⟨BitVec.eq_of_toNat_eq h5, rfl⟩))))
  · have h6 : opc = 6 := by bv_omega
    exact .inr (.inr (.inr (.inr (.inr ⟨h6, rfl⟩))))

/-- The decoder rejects exactly the words under R53. -/
theorem decode_illegal_iff (r : Request) : (∃ why, decode r = .illegal why) ↔ SpellsNoCommand r.cmd := by
  obtain ⟨hw, hill⟩ | ⟨hw, hi⟩ := decode_cases r
  · exact iff_of_true hill hw
  · refine iff_of_false ?_ hw
    rintro ⟨why, hwhy⟩
    simp [hwhy] at hi

/-- A word is its six fields (R46). -/
theorem cmd_eq_iff_fields (w x : BitVec 32) : w = x ↔
    w.extractLsb' 28 4 = x.extractLsb' 28 4 ∧ w.extractLsb' 26 2 = x.extractLsb' 26 2 ∧
    w.extractLsb' 25 1 = x.extractLsb' 25 1 ∧ w.extractLsb' 24 1 = x.extractLsb' 24 1 ∧
    w.extractLsb' 16 8 = x.extractLsb' 16 8 ∧ w.extractLsb' 0 16 = x.extractLsb' 0 16 := by
  refine ⟨by rintro rfl; simp only [and_self], fun h => ?_⟩
  simp only [← BitVec.toNat_inj, BitVec.extractLsb'_toNat, Nat.shiftRight_eq_div_pow] at h
  apply BitVec.eq_of_toNat_eq
  omega

/-- A row is compared field by field, each under its part of the mask (R46). -/
theorem TableRow.selects_iff_fields (row : TableRow) : row.selects w = true ↔
    w.extractLsb' 28 4 &&& row.mask.extractLsb' 28 4 = row.pattern.extractLsb' 28 4 ∧
    w.extractLsb' 26 2 &&& row.mask.extractLsb' 26 2 = row.pattern.extractLsb' 26 2 ∧
    w.extractLsb' 25 1 &&& row.mask.extractLsb' 25 1 = row.pattern.extractLsb' 25 1 ∧
    w.extractLsb' 24 1 &&& row.mask.extractLsb' 24 1 = row.pattern.extractLsb' 24 1 ∧
    w.extractLsb' 16 8 &&& row.mask.extractLsb' 16 8 = row.pattern.extractLsb' 16 8 ∧
    w.extractLsb' 0 16 &&& row.mask.extractLsb' 0 16 = row.pattern.extractLsb' 0 16 := by
  simp only [TableRow.selects, beq_iff_eq, cmd_eq_iff_fields, BitVec.extractLsb'_and]

/-- What the six rows ask of a word together (R46): in every row each field is masked whole or not at all, and the
reserved fields are asked to be zero. -/
theorem exists_selects_iff_fields : (∃ row ∈ tableRows, row.selects w = true) ↔
    (w.extractLsb' 26 2 = 0 ∧ w.extractLsb' 16 8 = 0) ∧
    (w.extractLsb' 28 4 ∈ [2, 6] ∨ (w.extractLsb' 24 1 = 0 ∧ w.extractLsb' 25 1 = 0) ∧
      (w.extractLsb' 28 4 = 1 ∨ w.extractLsb' 28 4 ∈ [3, 4, 5] ∧ w.extractLsb' 0 16 = 0)) := by
  have ones4 (x : BitVec 4) : x &&& 15#4 = x := BitVec.and_allOnes
  have ones2 (x : BitVec 2) : x &&& 3#2 = x := BitVec.and_allOnes
  have ones1 (x : BitVec 1) : x &&& 1#1 = x := BitVec.and_allOnes
  have ones8 (x : BitVec 8) : x &&& 255#8 = x := BitVec.and_allOnes
  have ones16 (x : BitVec 16) : x &&& 65535#16 = x := BitVec.and_allOnes
  simp only [tableRows, BitVec.ofNat_eq_ofNat, List.mem_cons, List.not_mem_nil, or_false, exists_eq_or_imp,
    ↓existsAndEq, true_and, TableRow.selects_iff_fields, BitVec.reduceExtractLsb', ones4, ones2, ones1, ones8, ones16,
    BitVec.and_zero, and_true]
  grind

/-- The opcode table and R53 agree (R46, R53). -/
theorem exists_selects_iff : (∃ row ∈ tableRows, row.selects w = true) ↔ ¬SpellsNoCommand w := by
  rw [exists_selects_iff_fields, SpellsNoCommand]
  generalize w.extractLsb' 28 4 = opc
  generalize w.extractLsb' 25 1 = k
  generalize w.extractLsb' 24 1 = s
  have hk : k = 1 ↔ ¬k = 0 := by bv_omega
  have hs : s = 1 ↔ ¬s = 0 := by bv_omega
  simp only [List.mem_cons, List.not_mem_nil, or_false, ← BitVec.toNat_inj (x := opc), BitVec.reduceToNat, hk, hs,
    ne_eq, not_or, not_and, not_not]
  constructor
  · rintro ⟨hres, hopc | ⟨hflags, hopc | ⟨hopc, hvid⟩⟩⟩
    · exact ⟨by omega, hres, by omega, by omega⟩
    · exact ⟨by omega, hres, by simp [hflags], by omega⟩
    · exact ⟨by omega, hres, by simp [hflags], fun h => absurd hvid h⟩
  · rintro ⟨hopc, hres, hflags, hvid⟩
    refine ⟨hres, or_iff_not_imp_left.2 fun hkeyed => ?_⟩
    have hclear : s = 0 ∧ k = 0 := by
      by_contra hset
      exact hkeyed (or_iff_not_imp_left.2 (hflags (not_and_or.1 hset)))
    refine ⟨hclear, or_iff_not_imp_left.2 fun hdescribe => ?_⟩
    have hfixed : opc.toNat = 3 ∨ opc.toNat = 4 ∨ opc.toNat = 5 := by omega
    exact ⟨hfixed, by_contra fun hv => by have := hvid hv; omega⟩

/-- A word matches no row exactly under R53 (R109). -/
theorem off_table_iff : (∀ row ∈ tableRows, row.selects w = false) ↔ SpellsNoCommand w := by
  rw [← not_iff_not, ← exists_selects_iff]
  simp only [not_forall, Bool.not_eq_false, exists_prop]

end Sys2Proof
end

section
/-! The error conditions (60_exceptions.md): the status of a command as a function of `ST` and its operands, and that
the engine answers it. -/

namespace Sys2Proof.Machine

variable {s t : State} {r : Request} {rest : List Input} {e : Status} {i : Instr} {st : ContextState} {v : Variant}
  {vid : BitVec 16} {salt : Option SaltOperand} {key : Option (List Byte)} {data : List Byte}

/-- The status the checks of the operands end with (R106, R107). -/
def checkStatus (vid : BitVec 16) (key : Option (List Byte)) : Status :=
  match checkOperands vid key with
  | .error e => e
  | .ok _ => .ok

/-- The status of a command by its operands alone; DESCRIBE is checked as a command without key (R57). -/
def operandStatus : Instr → Status
  | .describe vid => checkStatus vid none
  | .init vid _ key => checkStatus vid key
  | .update _ => .ok
  | .finalize => .ok
  | .reset => .ok
  | .hash vid _ key _ => checkStatus vid key

/-- The status of a command in a state `st` (R110): its cell of the table, then its operands. -/
def commandStatus (st : ContextState) (i : Instr) : Status :=
  if tableNext st i = none then .alreadyFinalized else operandStatus i

theorem checkStatus_of_error (h : checkOperands vid key = .error e) : checkStatus vid key = e := by
  rw [checkStatus, h]

theorem checkStatus_of_ok (h : checkOperands vid key = .ok v) : checkStatus vid key = .ok := by
  rw [checkStatus, h]

theorem checkStatus_cases (vid : BitVec 16) (key : Option (List Byte)) :
    (Variant.ofVid vid = none ∧ checkStatus vid key = .unsupportedVariant) ∨
    ∃ v, Variant.ofVid vid = some v ∧
      checkStatus vid key = if keyLengthOk v key then .ok else .invalidKeyLength := by
  obtain ⟨hv, hc⟩ | ⟨v, hv, hk, hc⟩ | ⟨v, hv, hk, hc⟩ := checkOperands_cases vid key
  · exact .inl ⟨hv, checkStatus_of_error hc⟩
  · exact .inr ⟨v, hv, by rw [checkStatus_of_error hc, hk]; rfl⟩
  · exact .inr ⟨v, hv, by rw [checkStatus_of_ok hc, hk]; rfl⟩

/-- Only the identifier of a variant names it (R47). -/
theorem eq_vid_of_ofVid (h : Variant.ofVid vid = some v) : vid = v.vid := by
  unfold Variant.ofVid at h
  split_ifs at h with h224 h256 h384 h512
  · cases h; exact h224
  · cases h; exact h256
  · cases h; exact h384
  · cases h; exact h512

@[simp] theorem checkStatus_vid (v : Variant) (key : Option (List Byte)) :
    checkStatus v.vid key = if keyLengthOk v key then .ok else .invalidKeyLength := by
  simpa using checkStatus_cases v.vid key

theorem checkStatus_eq_unsupportedVariant_iff :
    checkStatus vid key = .unsupportedVariant ↔ vid ≠ 224 ∧ vid ≠ 256 ∧ vid ≠ 384 ∧ vid ≠ 512 := by
  rw [← ofVid_eq_none_iff]
  obtain ⟨hv, hc⟩ | ⟨v, hv, hc⟩ := checkStatus_cases vid key
  · exact iff_of_true hc hv
  · rw [hc, hv]
    cases keyLengthOk v key <;> simp

/-- The key-length check fails for a key of another length than `OUT`, never without a key (R107). -/
theorem keyLengthOk_eq_false_iff : keyLengthOk v key = false ↔ ∃ k, key = some k ∧ k.length ≠ v.out := by
  cases key <;> simp [keyLengthOk]

theorem checkStatus_vid_eq_invalidKeyLength_iff :
    checkStatus v.vid key = .invalidKeyLength ↔ ∃ k, key = some k ∧ k.length ≠ v.out := by
  rw [← keyLengthOk_eq_false_iff, checkStatus_vid]
  cases keyLengthOk v key <;> simp

@[simp] theorem commandStatus_describe : commandStatus st (.describe vid) = checkStatus vid none := by
  simp [commandStatus, tableNext_eq_none_iff, operandStatus]

@[simp] theorem commandStatus_init : commandStatus st (.init vid salt key) = checkStatus vid key := by
  simp [commandStatus, tableNext_eq_none_iff, operandStatus]

@[simp] theorem commandStatus_update :
    commandStatus st (.update data) = if st = .void ∨ st = .finalized then .alreadyFinalized else .ok := by
  simp [commandStatus, tableNext_eq_none_iff, operandStatus]

@[simp] theorem commandStatus_finalize :
    commandStatus st .finalize = if st = .void ∨ st = .finalized then .alreadyFinalized else .ok := by
  simp [commandStatus, tableNext_eq_none_iff, operandStatus]

@[simp] theorem commandStatus_reset :
    commandStatus st .reset = if st = .void then .alreadyFinalized else .ok := by
  simp [commandStatus, tableNext_eq_none_iff, operandStatus]

@[simp] theorem commandStatus_hash : commandStatus st (.hash vid salt key data) = checkStatus vid key := by
  simp [commandStatus, tableNext_eq_none_iff, operandStatus]

theorem checkStatus_values (vid : BitVec 16) (key : Option (List Byte)) : checkStatus vid key = .ok ∨
    checkStatus vid key = .unsupportedVariant ∨ checkStatus vid key = .invalidKeyLength := by
  obtain ⟨-, hc⟩ | ⟨v, -, hc⟩ := checkStatus_cases vid key
  · exact .inr (.inl hc)
  · rw [hc]
    cases keyLengthOk v key <;> simp

theorem operandStatus_values (i : Instr) :
    operandStatus i = .ok ∨ operandStatus i = .unsupportedVariant ∨ operandStatus i = .invalidKeyLength := by
  cases i with
  | describe vid => exact checkStatus_values vid none
  | init vid salt key => exact checkStatus_values vid key
  | update data => exact .inl rfl
  | finalize => exact .inl rfl
  | reset => exact .inl rfl
  | hash vid salt key data => exact checkStatus_values vid key

/-- `AlreadyFinalized` comes from the cell, never from the operands (R108). -/
theorem commandStatus_eq_alreadyFinalized_iff :
    commandStatus st i = .alreadyFinalized ↔ tableNext st i = none := by
  unfold commandStatus
  split_ifs with hcell
  · exact iff_of_true rfl hcell
  · refine iff_of_false ?_ hcell
    rcases operandStatus_values i with h | h | h <;> simp [h]

/-- `IllegalCommand` is the status of no command (R109). -/
theorem commandStatus_ne_illegalCommand : commandStatus st i ≠ .illegalCommand := by
  unfold commandStatus
  split_ifs with hcell
  · nofun
  · rcases operandStatus_values i with h | h | h <;> simp [h]

theorem checkOperands_of_checkStatus_ne_ok (h : checkStatus vid key ≠ .ok) :
    checkOperands vid key = .error (checkStatus vid key) := by
  cases hc : checkOperands vid key with
  | error e => rw [checkStatus_of_error hc]
  | ok v => exact absurd (checkStatus_of_ok hc) h

theorem checkStatus_unkeyed_ne_ok_iff : checkStatus vid none ≠ .ok ↔ Variant.ofVid vid = none := by
  obtain ⟨hv, hc⟩ | ⟨v, hv, hc⟩ := checkStatus_cases vid none
  · exact iff_of_true (by rw [hc]; nofun) hv
  · exact iff_of_false (fun h => h hc) (by rw [hv]; nofun)

/-- Operands that fail their checks are rejected, in every state (R105, R106, R107). -/
theorem exec_of_operandStatus_ne_ok (h : operandStatus i ≠ .ok) (s : State) :
    exec i s = .next (s.rejected (operandStatus i)) := by
  cases i with
  | describe vid =>
    have hv := checkStatus_unkeyed_ne_ok_iff.1 h
    rw [exec_describe_unsupported hv, operandStatus,
      checkStatus_eq_unsupportedVariant_iff.2 ((ofVid_eq_none_iff vid).1 hv)]
  | init vid salt key =>
    simp only [exec, execInit, checkOperands_of_checkStatus_ne_ok h, State.reject_eq_rejected, operandStatus]
  | update data => exact absurd rfl h
  | finalize => exact absurd rfl h
  | reset => exact absurd rfl h
  | hash vid salt key data =>
    simp only [exec, execHash, checkOperands_of_checkStatus_ne_ok h, State.reject_eq_rejected, operandStatus]

/-- A cause is answered by the rejection, in every state (R105, R110). -/
theorem exec_of_commandStatus (he : commandStatus s.st i = e) (hne : e ≠ .ok) :
    exec i s = .next (s.rejected e) := by
  unfold commandStatus at he
  split_ifs at he with hcell
  · rw [← he]
    exact exec_of_tableNext_none hcell
  · subst he
    exact exec_of_operandStatus_ne_ok hne s

theorem commandStatus_of_tableNext_some {st' : ContextState} (h : tableNext st i = some st') :
    commandStatus st i = operandStatus i :=
  if_neg (by rw [h]; nofun)

theorem State.reject_status (s : State) (e : Status) : (s.reject e).lastResponse.map (·.status) = some e := by
  simp [State.lastResponse]

theorem State.accept_status (s : State) (eng : Engine) (p : Payload) :
    (s.accept eng p).lastResponse.map (·.status) = some .ok := by
  simp [State.lastResponse]

/-- An answered command is answered with its status (R110). -/
theorem exec_status (h : exec i s = .next t) : t.lastResponse.map (·.status) = some (commandStatus s.st i) := by
  cases i with
  | describe vid =>
    rw [commandStatus_describe]
    obtain ⟨hv, hc⟩ | ⟨v, hv, hc⟩ := checkStatus_cases vid none
    · rw [exec_describe_unsupported hv] at h
      cases h
      exact hc ▸ s.reject_status _
    · rw [eq_vid_of_ofVid hv, exec_describe_vid] at h
      cases h
      exact hc ▸ s.accept_status _ _
  | init vid salt key =>
    rw [commandStatus_init]
    obtain ⟨e, he, rfl⟩ | ⟨v, c, hc, -, rfl⟩ := execInit_cases h
    · rw [State.reject_status, checkStatus_of_error he]
    · rw [State.accept_status, checkStatus_of_ok hc]
  | update data =>
    obtain ⟨hclosed, rfl⟩ | ⟨v, c, c', he, hp, -, rfl⟩ := execUpdate_cases h
    · rw [State.reject_status, commandStatus_update, if_pos (State.st_closed_iff.2 hclosed)]
    · rw [State.accept_status, State.st_of_live he, commandStatus_of_tableNext_some (tableNext_update_of_open hp)]
      rfl
  | finalize =>
    obtain ⟨hclosed, rfl⟩ | ⟨v, c, he, hp, rfl⟩ := execFinalize_cases h
    · rw [State.reject_status, commandStatus_finalize, if_pos (State.st_closed_iff.2 hclosed)]
    · rw [State.accept_status, State.st_of_live he, commandStatus_of_tableNext_some (tableNext_finalize_of_open hp)]
      rfl
  | reset =>
    obtain ⟨he, rfl⟩ | ⟨v, c, c', he, -, rfl⟩ := execReset_cases h
    · rw [State.reject_status, commandStatus_reset, if_pos (State.st_eq_void_iff.2 he)]
    · rw [State.accept_status, State.st_of_live he, commandStatus_of_tableNext_some (tableNext_reset_of_live _)]
      rfl
  | hash vid salt key data =>
    rw [commandStatus_hash]
    obtain ⟨e, he, rfl⟩ | ⟨v, c, hc, -, rfl⟩ := execHash_cases h
    · rw [State.reject_status, checkStatus_of_error he]
    · rw [State.accept_status, checkStatus_of_ok hc]

/-- A command is rejected with an error exactly when that is its status (R105, R110). -/
theorem exec_rejected_iff (hne : e ≠ .ok) :
    exec i s = .next (s.rejected e) ↔ commandStatus s.st i = e := by
  refine ⟨fun h => ?_, fun h => exec_of_commandStatus h hne⟩
  have hst : some e = some (commandStatus s.st i) := (s.reject_status e).symm.trans (exec_status h)
  exact (Option.some.inj hst).symm

/-- Settles O28: all three commands have the status of their operands, and the lookup of the variant is its first
check. -/
theorem unsupportedVariantExactly : Obligations.UnsupportedVariantExactly := by
  intro vid salt key data s
  simp only [exec_rejected_iff (e := .unsupportedVariant) nofun, commandStatus_describe, commandStatus_init,
    commandStatus_hash, checkStatus_eq_unsupportedVariant_iff, and_self]

/-- Settles O29: for a supported variant the key length is the only check left. -/
theorem invalidKeyLengthExactly : Obligations.InvalidKeyLengthExactly := by
  intro v salt key data s
  simp only [exec_rejected_iff (e := .invalidKeyLength) nofun, commandStatus_init, commandStatus_hash,
    checkStatus_vid_eq_invalidKeyLength_iff, and_self]

/-- Settles O30: the commands so answered are those of the cells `AlreadyFinalized` of R81. -/
theorem alreadyFinalizedExactly : Obligations.AlreadyFinalizedExactly := by
  intro i s
  rw [exec_rejected_iff (by decide), commandStatus_eq_alreadyFinalized_iff, tableNext_eq_none_iff]

/-- A step on a request is the rejection `IllegalCommand` exactly for a word under R53 (R109). -/
theorem step_illegalCommand_iff (hin : s.inbox = .command r :: rest) :
    step s = .next (s.rejected .illegalCommand) ↔ SpellsNoCommand r.cmd := by
  rw [← decode_illegal_iff]
  refine ⟨fun h => ?_, fun ⟨_, hwhy⟩ => step_of_illegal hin hwhy⟩
  obtain ⟨why, hwhy, -⟩ | ⟨i, -, hexec⟩ := step_command_cases hin h
  · exact ⟨why, hwhy⟩
  · exact absurd ((exec_rejected_iff (by decide)).1 hexec) commandStatus_ne_illegalCommand

/-- Settles O3: the opcode table, R53 and the decoder leave the same words without a meaning, and no command is
answered `IllegalCommand`. -/
theorem illegalCommandExactlyOffTheTable : Obligations.IllegalCommandExactlyOffTheTable := fun _ r _ hin =>
  ⟨off_table_iff r.cmd, (off_table_iff r.cmd).trans (step_illegalCommand_iff hin).symm⟩

theorem toNat_vid (v : Variant) : v.vid.toNat = 8 * v.out := by
  cases v <;> rfl

/-- The checks of the operands as R106 and R107 word them: `OUT` bytes are `VID` bits. -/
theorem checkStatus_eq_ite (vid : BitVec 16) (key : Option (List Byte)) : checkStatus vid key =
    if vid ≠ 224 ∧ vid ≠ 256 ∧ vid ≠ 384 ∧ vid ≠ 512 then .unsupportedVariant
    else if key.any (fun k => 8 * k.length ≠ vid.toNat) then .invalidKeyLength
    else .ok := by
  obtain ⟨hv, hc⟩ | ⟨v, hv, hc⟩ := checkStatus_cases vid key
  · rw [hc, if_pos ((ofVid_eq_none_iff vid).1 hv)]
  · have hsome : ¬(vid ≠ 224 ∧ vid ≠ 256 ∧ vid ≠ 384 ∧ vid ≠ 512) := by
      rw [← ofVid_eq_none_iff, hv]
      nofun
    rw [hc, if_neg hsome, eq_vid_of_ofVid hv, toNat_vid]
    cases key <;> simp [keyLengthOk, ite_not]

theorem keyOperand_any (r : Request) (p : List Byte → Bool) :
    r.keyOperand.any p = true ↔ r.cmd.extractLsb' 25 1 = 1 ∧ p r.key = true := by
  rw [← cmdK_eq_true_iff, Request.keyOperand]
  cases cmdK r.cmd <;> simp

theorem all_not_selects_iff (w : BitVec 32) :
    (tableRows.all fun row => !row.selects w) = true ↔ SpellsNoCommand w := by
  rw [← off_table_iff, List.all_eq_true]
  simp only [Bool.not_eq_true']

theorem priorityStatus_of_spellsNoCommand (h : SpellsNoCommand r.cmd) : priorityStatus r st = .illegalCommand := by
  rw [priorityStatus, if_pos ((all_not_selects_iff r.cmd).2 h)]

/-- For a command the order of tests of R110, read off the word's fields, gives the command's status. -/
theorem priorityStatus_of_instr (h : decode r = .instr i) : priorityStatus r st = commandStatus st i := by
  obtain ⟨-, why, hwhy⟩ | ⟨hw, hi⟩ := decode_cases r
  · cases h.symm.trans hwhy
  rw [priorityStatus, if_neg (mt (all_not_selects_iff r.cmd).1 hw)]
  obtain ⟨hopc, hi⟩ | ⟨hopc, hi⟩ | ⟨hopc, hi⟩ | ⟨hopc, hi⟩ | ⟨hopc, hi⟩ | ⟨hopc, hi⟩ := hi
  all_goals cases h.symm.trans hi
  · simp [hopc, checkStatus_eq_ite]
  · simp [hopc, checkStatus_eq_ite, keyOperand_any]
  · simp [hopc]
  · simp [hopc]
  · simp [hopc]
  · simp [hopc, checkStatus_eq_ite, keyOperand_any]

/-- Settles O31: a word off the table is rejected as such, and a command is answered with its status, which is what the
order of tests reads off the word. -/
theorem statusFollowsThePriority : Obligations.StatusFollowsThePriority := by
  intro s t r rest hin h
  obtain ⟨why, hwhy, rfl⟩ | ⟨i, hdec, hexec⟩ := step_command_cases hin h
  · rw [State.reject_status, priorityStatus_of_spellsNoCommand ((decode_illegal_iff r).1 ⟨why, hwhy⟩)]
  · rw [exec_status hexec, priorityStatus_of_instr hdec]

end Sys2Proof.Machine
end

section
/-! Decoding and encoding (30_encoding.md R46 to R48): each decodes what the other spells, and the rows of the match and
mask table. -/

namespace Sys2Proof

/-- A HASH word passes the four checks of R53; its flags say which operands it has (R48). -/
theorem decode_cmdWord_hash (k s : Bool) (vid : BitVec 16) (salt : SaltOperand) (key data : List Byte) :
    decode ⟨cmdWord 6 k s vid, salt, key, data⟩ =
      .instr (.hash vid (if s then some salt else none) (if k then some key else none) data) := by
  simp [decode, Request.saltOperand, Request.keyOperand, cmdOpc_cmdWord, cmdRsv1_cmdWord, cmdRsv0_cmdWord,
    cmdK_cmdWord, cmdS_cmdWord, cmdVid_cmdWord]

/-- The words of UPDATE, FINALIZE and RESET pass the four checks of R53. -/
theorem decode_cmdWord_plain (salt : SaltOperand) (key data : List Byte) :
    decode ⟨cmdWord 3 false false 0, salt, key, data⟩ = .instr (.update data) ∧
    decode ⟨cmdWord 4 false false 0, salt, key, data⟩ = .instr .finalize ∧
    decode ⟨cmdWord 5 false false 0, salt, key, data⟩ = .instr .reset := by
  simp [decode, cmdOpc_cmdWord, cmdRsv1_cmdWord, cmdRsv0_cmdWord, cmdK_cmdWord, cmdS_cmdWord, cmdVid_cmdWord]

/-- An operand is taken as given exactly when its flag is set (R48). -/
theorem ite_isSome_getD {α : Type} (o : Option α) (d : α) : (if o.isSome then some (o.getD d) else none) = o := by
  cases o <;> rfl

/-- Settles O1: the flags of a word with operands give each operand back; the words without operands are three
constants. -/
theorem decodeOfEncodeIsTheCommand : Obligations.DecodeOfEncodeIsTheCommand := by
  intro i
  cases i with
  | describe vid => exact Machine.decode_cmdWord_describe vid noSalt [] []
  | init vid salt key => rw [encode, Machine.decode_cmdWord_init, ite_isSome_getD, ite_isSome_getD]
  | update data =>
    obtain ⟨hupdate, -, -⟩ := decode_cmdWord_plain noSalt [] data
    exact hupdate
  | finalize =>
    obtain ⟨-, hfinalize, -⟩ := decode_cmdWord_plain noSalt [] []
    exact hfinalize
  | reset =>
    obtain ⟨-, -, hreset⟩ := decode_cmdWord_plain noSalt [] []
    exact hreset
  | hash vid salt key data => rw [encode, decode_cmdWord_hash, ite_isSome_getD, ite_isSome_getD]

section
variable (w : BitVec 32)

theorem toNat_cmdK : (cmdK w).toNat = cmdBits w 25 25 := by
  have hlt : cmdBits w 25 25 < 2 := Nat.mod_lt _ (by decide)
  unfold cmdK
  interval_cases cmdBits w 25 25 <;> rfl

theorem toNat_cmdS : (cmdS w).toNat = cmdBits w 24 24 := by
  have hlt : cmdBits w 24 24 < 2 := Nat.mod_lt _ (by decide)
  unfold cmdS
  interval_cases cmdBits w 24 24 <;> rfl

/-- A word whose reserved fields are zero is the word of its other fields (R46). -/
theorem cmdWord_fields (h1 : cmdRsv1 w = 0) (h0 : cmdRsv0 w = 0) :
    cmdWord (cmdOpc w) (cmdK w) (cmdS w) (cmdVid w) = w := by
  have hopc : cmdOpc w < 16 := Nat.mod_lt _ (by decide)
  apply BitVec.eq_of_toNat_eq
  rw [cmdWord_toNat _ _ _ _ hopc, toNat_cmdK, toNat_cmdS, cmdVid, BitVec.toNat_ofNat]
  simp only [cmdOpc, cmdRsv1, cmdRsv0, cmdBits_eq] at *
  omega

end

/-- What the fields of a word are that spells a command (R53): reserved fields zero, flags for INIT and HASH alone,
`VID` zero for UPDATE, FINALIZE and RESET. -/
theorem fields_of_not_spellsNoCommand {w : BitVec 32} (h : ¬SpellsNoCommand w) :
    cmdRsv1 w = 0 ∧ cmdRsv0 w = 0 ∧ (cmdOpc w ≠ 2 → cmdOpc w ≠ 6 → cmdK w = false ∧ cmdS w = false) ∧
      (cmdOpc w = 3 ∨ cmdOpc w = 4 ∨ cmdOpc w = 5 → cmdVid w = 0) := by
  simp only [SpellsNoCommand, ← cmdOpc_eq, ← cmdVid_eq, ← cmdK_eq_true_iff, ← cmdS_eq_true_iff, ne_eq,
    ← cmdRsv1_eq_zero_iff, ← cmdRsv0_eq_zero_iff, not_or, not_and, not_not] at h
  obtain ⟨-, ⟨h1, h0⟩, hflags, hvid⟩ := h
  refine ⟨h1, h0, fun h2 h6 => ?_, fun hopc => by_contra fun hne => ?_⟩
  · have hclear : ¬(cmdS w = true ∨ cmdK w = true) := fun hset => h6 (hflags hset h2)
    simpa [and_comm] using hclear
  · obtain ⟨h3, h4, h5⟩ := hvid hne
    rcases hopc with h | h | h <;> contradiction

/-- The operation code, the flags and the identifier of a decoded word are those of its command, so its command's word
is the word itself (R46). -/
theorem encode_cmd_of_decode {r : Request} {i : Instr} (h : decode r = .instr i) : (encode i).cmd = r.cmd := by
  obtain ⟨-, why, hwhy⟩ | ⟨hw, hi⟩ := decode_cases r
  · cases h.symm.trans hwhy
  obtain ⟨h1, h0, hflags, hvid⟩ := fields_of_not_spellsNoCommand hw
  have hword := cmdWord_fields r.cmd h1 h0
  have hsalt : r.saltOperand.isSome = cmdS r.cmd := by rw [Request.saltOperand]; cases cmdS r.cmd <;> rfl
  have hkey : r.keyOperand.isSome = cmdK r.cmd := by rw [Request.keyOperand]; cases cmdK r.cmd <;> rfl
  rw [← cmdVid_eq] at hi
  simp only [← BitVec.toNat_inj, ← cmdOpc_eq, BitVec.reduceToNat] at hi
  obtain ⟨hopc, hi⟩ | ⟨hopc, hi⟩ | ⟨hopc, hi⟩ | ⟨hopc, hi⟩ | ⟨hopc, hi⟩ | ⟨hopc, hi⟩ := hi
  all_goals cases h.symm.trans hi
  · simpa [encode, hopc, hflags] using hword
  · simpa [encode, hopc, hsalt, hkey] using hword
  · simpa [encode, hopc, hflags, hvid] using hword
  · simpa [encode, hopc, hflags, hvid] using hword
  · simpa [encode, hopc, hflags, hvid] using hword
  · simpa [encode, hopc, hsalt, hkey] using hword

/-- The fields of a command word that a row can ask for (R46), those below the operation code as they were given. -/
theorem extractLsb'_cmdWord (opc : Nat) (k s : Bool) (vid : BitVec 16) (h : opc < 16) :
    (cmdWord opc k s vid).extractLsb' 28 4 = BitVec.ofNat 4 opc ∧ (cmdWord opc k s vid).extractLsb' 26 2 = 0 ∧
    (cmdWord opc k s vid).extractLsb' 16 8 = 0 ∧
    (k = false → (cmdWord opc k s vid).extractLsb' 25 1 = 0) ∧
    (s = false → (cmdWord opc k s vid).extractLsb' 24 1 = 0) := by
  refine ⟨?_, (cmdRsv1_eq_zero_iff _).1 (cmdRsv1_cmdWord _ _ _ _ h),
    (cmdRsv0_eq_zero_iff _).1 (cmdRsv0_cmdWord _ _ _ _ h), ?_, ?_⟩
  · apply BitVec.eq_of_toNat_eq
    rw [← cmdOpc_eq, cmdOpc_cmdWord _ _ _ _ h, BitVec.toNat_ofNat, Nat.mod_eq_of_lt h]
  · rintro rfl
    refine (BitVec.eq_zero_or_eq_one _).resolve_right fun hone => ?_
    simpa [cmdK_cmdWord _ _ _ _ h] using (cmdK_eq_true_iff _).2 hone
  · rintro rfl
    refine (BitVec.eq_zero_or_eq_one _).resolve_right fun hone => ?_
    simpa [cmdS_cmdWord _ _ _ _ h] using (cmdS_eq_true_iff _).2 hone

/-- The word a command encodes to lies in the command's row (R46). -/
theorem tableRow_selects_encode (i : Instr) : i.tableRow.selects (encode i).cmd = true := by
  cases i with
  | describe vid => simp [Instr.tableRow, encode, TableRow.selects_iff_fields, extractLsb'_cmdWord]
  | init vid salt key => simp [Instr.tableRow, encode, TableRow.selects_iff_fields, extractLsb'_cmdWord]
  | update data => exact (by decide : (Instr.update []).tableRow.selects (encode (.update [])).cmd = true)
  | finalize => rfl
  | reset => rfl
  | hash vid salt key data => simp [Instr.tableRow, encode, TableRow.selects_iff_fields, extractLsb'_cmdWord]

/-- Settles O2: the word is the one its command encodes to, and that one lies in the command's row. -/
theorem encodeOfDecodeIsTheWord : Obligations.EncodeOfDecodeIsTheWord := by
  intro r i h
  have hcmd := encode_cmd_of_decode h
  exact ⟨hcmd, hcmd ▸ tableRow_selects_encode i⟩

/-- Settles O6: the decoder sees the salt and the key through their flags, and the data only for UPDATE and HASH. -/
theorem unusedOperandsAreIgnored : Obligations.UnusedOperandsAreIgnored := by
  intro r r' hcmd hsalt hkey hdata
  have hs : r.saltOperand = r'.saltOperand := by
    unfold Request.saltOperand
    rw [← hcmd]
    split_ifs with hflag
    · rw [hsalt ((cmdS_eq_true_iff r.cmd).1 hflag)]
    · rfl
  have hk : r.keyOperand = r'.keyOperand := by
    unfold Request.keyOperand
    rw [← hcmd]
    split_ifs with hflag
    · rw [hkey ((cmdK_eq_true_iff r.cmd).1 hflag)]
    · rfl
  have hd : cmdOpc r.cmd = 3 ∨ cmdOpc r.cmd = 6 → r.data = r'.data := by
    rw [cmdOpc_eq]
    exact fun hopc => hdata (hopc.imp BitVec.eq_of_toNat_eq BitVec.eq_of_toNat_eq)
  unfold decode
  simp only [← hcmd, ← hs, ← hk]
  split_ifs with ha hb hc hd' h1 h2 h3 h4 h5
  any_goals rfl
  · rw [hd (.inl h3)]
  · rw [hd (.inr (by omega))]

/-- Settles O4: the first seven words are words of R46, and the decoder rejects the other two by their fields. -/
theorem commandWordsOfTheSpecDecode : Obligations.CommandWordsOfTheSpecDecode := by
  intro salt key data
  obtain ⟨hupdate, hfinalize, hreset⟩ := decode_cmdWord_plain salt key data
  refine ⟨Machine.decode_cmdWord_describe 384 salt key data, Machine.decode_cmdWord_init true true 512 salt key data,
    Machine.decode_cmdWord_init true false 256 salt key data, hupdate, hfinalize, hreset,
    decode_cmdWord_hash false true 512 salt key data, ?_, ?_⟩
  · simp [decode, cmdOpc, cmdRsv1, cmdRsv0, cmdS, cmdK, cmdBits]
  · simp [decode, cmdOpc, cmdRsv1, cmdRsv0, cmdBits]

/-- Every row asks the whole operation code of a word (R46). -/
theorem opc_of_selects {row : TableRow} (hrow : row ∈ tableRows) {w : BitVec 32} (h : row.selects w = true) :
    w.extractLsb' 28 4 = row.pattern.extractLsb' 28 4 := by
  have hmask : ∀ row ∈ tableRows, row.mask.extractLsb' 28 4 = BitVec.allOnes 4 := by decide
  obtain ⟨hopc, -⟩ := (row.selects_iff_fields w).1 h
  rwa [hmask row hrow, BitVec.and_allOnes] at hopc

/-- Settles O5: the rows have different operation codes, and each asks for its own. -/
theorem tableRowsDoNotOverlap : Obligations.TableRowsDoNotOverlap := by
  have hdiff : tableRows.Pairwise fun a b => a.pattern.extractLsb' 28 4 ≠ b.pattern.extractLsb' 28 4 := by decide
  refine hdiff.imp_of_mem fun ha hb hne w hsel => hne ?_
  rw [← opc_of_selects ha hsel.1, opc_of_selects hb hsel.2]

/-- Settles O7: the lookup of R47 and the table of R5 are inverse to each other. -/
theorem variantIdentifiersAreTheFour : Obligations.VariantIdentifiersAreTheFour :=
  ⟨fun v => ⟨Machine.ofVid_vid v, Machine.toNat_vid v⟩, fun _ _ => Machine.eq_vid_of_ofVid⟩

end Sys2Proof
end

section
/-! The step and the interface (20_memory.md section 6, 70_reset_and_hazards.md): what a step answers for each input,
and what becomes of the responses. -/

namespace Sys2Proof.Machine

variable {s t : State}

/-- Settles O9: the fields of `State.reset`. -/
theorem resetLeavesNoContext : Obligations.ResetLeavesNoContext := ⟨rfl, rfl, rfl, rfl, rfl, rfl⟩

/-- Settles O10: the input at the head is the reset. -/
theorem hardwareResetVoidsTheEngine : Obligations.HardwareResetVoidsTheEngine := by
  intro s rest hin
  have hpres : s.presented = .hardwareReset := by simp only [State.presented, hin]
  simp only [step, hpres, State.hardwareReset, hin, List.tail_cons]

/-- Settles O12: there is no input to take. -/
theorem idleEngineHoldsItsState : Obligations.IdleEngineHoldsItsState := by
  intro s hin
  have hpres : s.presented = .idle := by simp only [State.presented, hin]
  simp only [step, hpres]

/-- A request whose word decodes is run as its command (R41, R54). -/
theorem step_of_instr {r : Request} {rest : List Input} {i : Instr} (hin : s.inbox = .command r :: rest)
    (hdec : decode r = .instr i) : step s = exec i s := by
  have hpres : s.presented = .run i := by simp only [State.presented, hin, hdec]
  simp only [step, hpres]

/-- An answered command takes its request off the interface and delivers one response (R41, R50). -/
theorem exec_interface {i : Instr} (h : exec i s = .next t) :
    t.inbox = s.inbox.tail ∧ ∃ resp, t.outbox = s.outbox ++ [resp] := by
  obtain ⟨e, rfl⟩ | ⟨eng, p, rfl, -⟩ := exec_rejects_or_accepts h
  · exact ⟨rfl, _, rfl⟩
  · exact ⟨rfl, _, rfl⟩

/-- Settles O11: every command ends with one response, rejected or accepted. -/
theorem stepRunsTheDecodedCommand : Obligations.StepRunsTheDecodedCommand := by
  intro s r rest i hin hdec
  refine ⟨step_of_instr hin hdec, fun t h => ?_⟩
  obtain ⟨hinbox, hresp⟩ := exec_interface h
  exact ⟨by rw [hinbox, hin, List.tail_cons], hresp⟩

/-- A step only adds to the responses (R123). -/
theorem step_outbox_prefix (h : step s = .next t) : s.outbox <+: t.outbox := by
  obtain ⟨-, rfl⟩ | ⟨rest, -, rfl⟩ | ⟨r, rest, why, -, -, rfl⟩ | ⟨r, rest, i, -, -, hexec⟩ := step_cases h
  · exact List.prefix_rfl
  · exact List.prefix_rfl
  · exact List.prefix_append _ _
  · obtain ⟨-, resp, hout⟩ := exec_interface hexec
    rw [hout]
    exact List.prefix_append _ _

/-- A run of `n + 1` steps is a step and a run of `n` (R125). -/
theorem core_run_succ_cases {n : Nat} (h : Sys2Proof.core.run (n + 1) s = .next t) :
    ∃ s', step s = .next s' ∧ Sys2Proof.core.run n s' = .next t := by
  simp only [Host.Core.run] at h
  split at h
  · exact ⟨_, ‹_›, h⟩
  · cases h
  · cases h

/-- Settles O14, by induction on the number of steps. -/
theorem deliveredResponsesStand : Obligations.DeliveredResponsesStand := by
  intro n
  induction n with
  | zero =>
    intro s t h
    cases h
    exact List.prefix_rfl
  | succ n ih =>
    intro s t h
    obtain ⟨s', hstep, hrun⟩ := core_run_succ_cases h
    exact (step_outbox_prefix hstep).trans (ih s' t hrun)

end Sys2Proof.Machine
end

section
/-! The compression function (41_compress.md): the schedule of a round, mixing steps on disjoint words, and the final
flag. -/

namespace Sys2Proof.Machine

/-- The selection of a round depends on its row of the permutation table only (R67). -/
theorem sigmaRow_mod (r : Nat) : sigmaRow (r % 10) = sigmaRow r := by
  simp only [sigmaRow, Nat.mod_mod]

/-- Settles O16: each of the ten rows is a permutation, and round `r` selects by row `r mod 10`. -/
theorem roundUsesEveryWordOnce : Obligations.RoundUsesEveryWordOnce := by
  have hrows : ∀ q : Fin 10,
      ((List.finRange 8).flatMap fun i => [selJ q.val i, selK q.val i]).Perm (List.finRange 16) := by decide
  intro r
  have hrow := hrows ⟨r % 10, Nat.mod_lt _ (by decide)⟩
  simpa only [selJ, selK, sigmaRow_mod] using hrow

/-- Settles O19: the words the flag injects are zero (R7). -/
theorem finalFlagHasNoEffect : Obligations.FinalFlagHasNoEffect := by
  intro cfg v h m s t
  rw [compress, compress, injectFinal_eq, injectFinal_eq]

section
variable {v : Variant} {p q : Fin 16 → Prop} {f g : WorkingVector v → WorkingVector v}

/-- An update of the working vector that writes only words in `p`, from words in `p`. -/
def ActsWithin (p : Fin 16 → Prop) (f : WorkingVector v → WorkingVector v) : Prop :=
  (∀ vv (j : Fin 16), ¬p j → (f vv)[j] = vv[j]) ∧
  ∀ vv ww, (∀ j : Fin 16, p j → vv[j] = ww[j]) → ∀ j : Fin 16, p j → (f vv)[j] = (f ww)[j]

theorem ActsWithin.comp (hg : ActsWithin p g) (hf : ActsWithin p f) : ActsWithin p (g ∘ f) := by
  obtain ⟨hgframe, hglocal⟩ := hg
  obtain ⟨hfframe, hflocal⟩ := hf
  refine ⟨fun vv j hj => ?_, fun vv ww heq => hglocal _ _ (hflocal _ _ heq)⟩
  rw [Function.comp_apply, hgframe _ j hj, hfframe _ j hj]

/-- Updates within disjoint sets of words commute (R77). -/
theorem ActsWithin.commute (hf : ActsWithin p f) (hg : ActsWithin q g) (hdisj : ∀ j, p j → ¬q j) :
    Function.Commute f g := by
  obtain ⟨hfframe, hflocal⟩ := hf
  obtain ⟨hgframe, hglocal⟩ := hg
  intro vv
  suffices hword : ∀ j : Fin 16, (f (g vv))[j] = (g (f vv))[j] from Vector.ext fun j hj => hword ⟨j, hj⟩
  intro j
  by_cases hp : p j
  · rw [hgframe _ j (hdisj j hp)]
    exact hflocal _ _ (fun k hk => hgframe _ k (hdisj k hk)) j hp
  · rw [hfframe _ j hp]
    by_cases hq : q j
    · exact (hglocal _ _ (fun k hk => hfframe _ k fun hpk => hdisj k hpk hk) j hq).symm
    · rw [hgframe _ j hq, hgframe _ j hq, hfframe _ j hp]

theorem addInto3_actsWithin {a b : Fin 16} (ha : p a) (hb : p b) (x : Word v) :
    ActsWithin p fun vv => addInto3 vv a b x := by
  refine ⟨fun vv j hj => ?_, fun vv ww heq j hj => ?_⟩
  · rw [addInto3_get, if_neg (by rintro rfl; exact hj ha)]
  · rw [addInto3_get, addInto3_get, heq a ha, heq b hb, heq j hj]

theorem addInto2_actsWithin {a b : Fin 16} (ha : p a) (hb : p b) :
    ActsWithin (v := v) p fun vv => addInto2 vv a b := by
  refine ⟨fun vv j hj => ?_, fun vv ww heq j hj => ?_⟩
  · rw [addInto2_get, if_neg (by rintro rfl; exact hj ha)]
  · rw [addInto2_get, addInto2_get, heq a ha, heq b hb, heq j hj]

theorem xorRot_actsWithin {a b : Fin 16} (ha : p a) (hb : p b) (n : Nat) :
    ActsWithin (v := v) p fun vv => xorRot vv a b n := by
  refine ⟨fun vv j hj => ?_, fun vv ww heq j hj => ?_⟩
  · rw [xorRot_get, if_neg (by rintro rfl; exact hj ha)]
  · rw [xorRot_get, xorRot_get, heq a ha, heq b hb, heq j hj]

/-- Four lines of a mixing step stay within its four words (R66). -/
theorem mixHalf_actsWithin {a b c d : Fin 16} (ha : p a) (hb : p b) (hc : p c) (hd : p d) (x : Word v) (m n : Nat) :
    ActsWithin p (mixHalf a b c d x m n) :=
  (xorRot_actsWithin hb hc n).comp ((addInto2_actsWithin hc hd).comp
    ((xorRot_actsWithin hd ha m).comp (addInto3_actsWithin ha hb x)))

/-- A mixing step stays within its four words (R66). -/
theorem mixG_actsWithin (m : MessageWords v) (r : Nat) (i : Fin 8) (a b c d : Fin 16) :
    ActsWithin (· ∈ [a, b, c, d]) (mixG v m r i a b c d) :=
  (mixHalf_actsWithin (by simp) (by simp) (by simp) (by simp) _ _ _).comp
    (mixHalf_actsWithin (by simp) (by simp) (by simp) (by simp) _ _ _)

/-- Mixing steps on disjoint words commute (R77). -/
theorem mixG_commute (m : MessageWords v) (r : Nat) (i i' : Fin 8) {a b c d a' b' c' d' : Fin 16}
    (h : ∀ x ∈ [a, b, c, d], ∀ y ∈ [a', b', c', d'], x ≠ y) :
    Function.Commute (mixG v m r i a b c d) (mixG v m r i' a' b' c' d') :=
  (mixG_actsWithin m r i a b c d).commute (mixG_actsWithin m r i' a' b' c' d') fun j hj hj' => h j hj j hj' rfl

end

/-- Four updates that commute pairwise may run in the reverse order. -/
theorem apply_reverse_of_commute {α : Type} {f0 f1 f2 f3 : α → α} (h01 : Function.Commute f0 f1)
    (h02 : Function.Commute f0 f2) (h03 : Function.Commute f0 f3) (h12 : Function.Commute f1 f2)
    (h13 : Function.Commute f1 f3) (h23 : Function.Commute f2 f3) (x : α) :
    f3 (f2 (f1 (f0 x))) = f0 (f1 (f2 (f3 x))) := by
  rw [h23.eq, h13.eq, h03.eq, h12.eq, h02.eq, h01.eq]

/-- Settles O18: a mixing step reads and writes its own four words only; the steps of a column step, or of a diagonal
step, are on disjoint words. -/
theorem disjointMixingStepsCommute : Obligations.DisjointMixingStepsCommute := by
  refine fun v m r => ⟨fun i i' a b c d a' b' c' d' vv h => mixG_commute m r i i' h vv, fun vv => ?_, fun vv => ?_⟩
  · exact apply_reverse_of_commute (mixG_commute m r _ _ (by decide)) (mixG_commute m r _ _ (by decide))
      (mixG_commute m r _ _ (by decide)) (mixG_commute m r _ _ (by decide)) (mixG_commute m r _ _ (by decide))
      (mixG_commute m r _ _ (by decide)) vv
  · exact apply_reverse_of_commute (mixG_commute m r _ _ (by decide)) (mixG_commute m r _ _ (by decide))
      (mixG_commute m r _ _ (by decide)) (mixG_commute m r _ _ (by decide)) (mixG_commute m r _ _ (by decide))
      (mixG_commute m r _ _ (by decide)) vv

end Sys2Proof.Machine
end

section
/-! The commands that make or replace a context (R82 to R88, R101), each as a function of the context its accepted part
gives, and what that part gives for a key. -/

namespace Sys2Proof.Machine

variable {s t : State} {v : Variant} {c : Ctx v} {vid : BitVec 16} {e : Status} {salt : Option SaltOperand}
  {key : Option (List Byte)} {data : List Byte}

/-- The end of a command whose accepted part gives a context, or none outside the contract of R84. -/
def State.complete (s : State) (payload : Ctx v → Payload) : Option (Ctx v) → Host.Outcome State Fault Refusal
  | none => .refused .inputTooLong
  | some c => .next (s.ended (.live v c) .ok (payload c))

/-- INIT whose operands pass their checks (R82, R83). -/
theorem exec_init_of_ok (h : checkOperands vid key = .ok v) : exec (.init vid salt key) s =
    s.complete (fun _ => .none) (createCtx config v (saltWords v salt) key) := by
  simp only [exec, execInit, h]
  cases createCtx config v (saltWords v salt) key <;> rfl

/-- INIT whose operands fail a check (R106, R107). -/
theorem exec_init_of_error (h : checkOperands vid key = .error e) :
    exec (.init vid salt key) s = .next (s.rejected e) := by
  simp only [exec, execInit, h, State.reject_eq_rejected]

/-- HASH whose operands pass their checks (R101). -/
theorem exec_hash_of_ok (h : checkOperands vid key = .ok v) : exec (.hash vid salt key data) s =
    s.complete (fun c => .digest (digest v c.h)) (hashCtx config v (saltWords v salt) key data) := by
  simp only [exec, execHash, h]
  cases hashCtx config v (saltWords v salt) key data <;> rfl

/-- HASH whose operands fail a check (R102, R106, R107). -/
theorem exec_hash_of_error (h : checkOperands vid key = .error e) :
    exec (.hash vid salt key data) s = .next (s.rejected e) := by
  simp only [exec, execHash, h, State.reject_eq_rejected]

/-- UPDATE in a context that takes input (R84). -/
theorem exec_update_of_open (he : s.engine = .live v c) (hp : c.phase ≠ .finalized) :
    exec (.update data) s = s.complete (fun _ => .none) (updateCtx config c data) := by
  simp only [exec, execUpdate, he, updateLive, hp, ↓reduceIte]
  cases updateCtx config c data <;> rfl

/-- RESET of any context (R88). -/
theorem exec_reset_of_live (he : s.engine = .live v c) :
    exec .reset s = s.complete (fun _ => .none) (resetCtx config c) := by
  simp only [exec, execReset, he]
  cases resetCtx config c <;> rfl

/-- A supported variant and a key of the right length, or none, pass the checks (R106, R107). -/
theorem checkOperands_vid (h : ∀ k, key = some k → k.length = v.out) : checkOperands v.vid key = .ok v := by
  have hk : keyLengthOk v key = true := by
    cases key with
    | none => rfl
    | some k => simpa [keyLengthOk] using h k rfl
  simp only [checkOperands, ofVid_vid, hk, ↓reduceIte]

/-- The accepted part of keyed INIT, `T` being zero before `P` (R83). -/
theorem keyedCtx_eq (cfg : Config) (v : Variant) (salt : SaltWords v) (key : List Byte) :
    keyedCtx cfg v salt key = if 8 * (cfg.keyMix v salt key).prefixBytes.length ≤ v.maxBits then
      some (absorb cfg (keyedStart cfg v salt key) (cfg.keyMix v salt key).prefixBytes) else none := by
  simp only [keyedCtx, fits_iff, keyedStart, BitVec.ofNat_eq_ofNat, BitVec.toNat_ofNat, Nat.zero_mod, Nat.zero_add]

/-- Settles O33: within the contract `P` is absorbed, outside it there is no context to accept. -/
theorem keyedInitStartsFromKeyMix : Obligations.KeyedInitStartsFromKeyMix := by
  intro v salt key s hlen km
  have hok : checkOperands v.vid (some key) = .ok v := checkOperands_vid (by rintro k ⟨⟩; exact hlen)
  rw [exec_init_of_ok hok, createCtx, keyedCtx_eq]
  split_ifs
  · rfl
  · rfl

/-- Four zero words are what an absent salt operand stands for (R82). -/
theorem saltWords_zero (v : Variant) : saltWords v (some #v[0, 0, 0, 0]) = saltWords v none := by
  cases v <;> rfl

/-- Settles O34: the salt operand reaches the engine as its words only. -/
theorem zeroSaltIsNoSalt : Obligations.ZeroSaltIsNoSalt := by
  intro vid key data s
  cases hops : checkOperands vid key with
  | error e => simp only [exec_init_of_error hops, exec_hash_of_error hops, and_self]
  | ok v => simp only [exec_init_of_ok hops, exec_hash_of_ok hops, saltWords_zero, and_self]

/-- The accepted part of RESET without key (R88). -/
theorem resetCtx_of_unkeyed (cfg : Config) (hk : c.k = none) : resetCtx cfg c = some (freshCtx v c.s) := by
  simp only [resetCtx, hk, freshCtx]

/-- The accepted part of RESET with key is that of keyed INIT (R88). -/
theorem resetCtx_of_keyed (cfg : Config) {k : KeyOperand v} (hk : c.k = some k) :
    resetCtx cfg c = keyedCtx cfg v k.salt k.bytes := by
  simp only [resetCtx, hk]

/-- Settles O46: without key the start is that of INIT with the salt held; with one, the retained operands are mixed
again. -/
theorem resetRebuildsTheStart : Obligations.ResetRebuildsTheStart := by
  refine fun v c s he => ⟨fun hk => ?_, fun k hk => ?_⟩
  · rw [exec_reset_of_live he, resetCtx_of_unkeyed config hk]
    rfl
  · intro km
    rw [exec_reset_of_live he, resetCtx_of_keyed config hk, keyedCtx_eq]
    split_ifs
    · rfl
    · rfl

/-- The response of an ended command is the last one delivered (R50). -/
@[simp] theorem State.ended_lastResponse (s : State) (eng : Engine) (e : Status) (p : Payload) :
    (s.ended eng e p).lastResponse = some ⟨e, p⟩ := by
  simp [State.lastResponse, State.ended]

@[simp] theorem State.ended_engine (s : State) (eng : Engine) (e : Status) (p : Payload) :
    (s.ended eng e p).engine = eng := rfl

/-- An answered command that ends by `complete` has its context (R84). -/
theorem State.complete_eq_next_iff {payload : Ctx v → Payload} {o : Option (Ctx v)} :
    s.complete payload o = .next t ↔ ∃ c, o = some c ∧ t = s.ended (.live v c) .ok (payload c) := by
  cases o <;> simp [State.complete, eq_comm]

/-- The checks answer an error, never `OK` (R106, R107). -/
theorem checkOperands_error_ne_ok (h : checkOperands vid key = .error e) : e ≠ .ok := by
  obtain rfl | rfl := checkOperands_error h <;> nofun

/-- INIT and HASH end in one way for all states: with the error of their operands, or by the context these give
(R82, R83, R101). -/
theorem exec_newContext_cases {i : Instr}
    (hi : (∃ vid salt key, i = .init vid salt key) ∨ ∃ vid salt key data, i = .hash vid salt key data) :
    (∃ e, e ≠ .ok ∧ ∀ s, exec i s = .next (s.rejected e)) ∨
    ∃ (v : Variant) (payload : Ctx v → Payload) (o : Option (Ctx v)), ∀ s, exec i s = s.complete payload o := by
  obtain ⟨vid, salt, key, rfl⟩ | ⟨vid, salt, key, data, rfl⟩ := hi
  · cases hops : checkOperands vid key with
    | error e => exact .inl ⟨e, checkOperands_error_ne_ok hops, fun _ => exec_init_of_error hops⟩
    | ok v => exact .inr ⟨v, _, _, fun _ => exec_init_of_ok hops⟩
  · cases hops : checkOperands vid key with
    | error e => exact .inl ⟨e, checkOperands_error_ne_ok hops, fun _ => exec_hash_of_error hops⟩
    | ok v => exact .inr ⟨v, _, _, fun _ => exec_hash_of_ok hops⟩

/-- Settles O51: both commands end as their operands alone decide. -/
theorem newContextForgetsTheOld : Obligations.NewContextForgetsTheOld := by
  intro i s1 s2 t1 hi h
  obtain ⟨e, hne, hexec⟩ | ⟨v, payload, o, hexec⟩ := exec_newContext_cases hi
  · rw [hexec] at h ⊢
    cases h
    exact ⟨_, rfl, by simp [State.rejected], fun hok => absurd (by simpa [State.rejected] using hok) hne⟩
  · rw [hexec] at h ⊢
    obtain ⟨c, rfl, rfl⟩ := State.complete_eq_next_iff.1 h
    exact ⟨_, rfl, by simp, fun _ => rfl⟩

/-- Settles O26: of the commands that answer a payload, FINALIZE and HASH answer the digest of the context they leave,
which they finalized. -/
theorem digestResponseHasOutBytes : Obligations.DigestResponseHasOutBytes := by
  intro i s t b h hout
  cases i with
  | describe vid => obtain rfl | ⟨v, -, rfl⟩ := execDescribe_cases h <;> simp at hout
  | init vid salt key => obtain ⟨e, -, rfl⟩ | ⟨v, c, -, -, rfl⟩ := execInit_cases h <;> simp at hout
  | update data => obtain ⟨-, rfl⟩ | ⟨v, c, c', -, -, -, rfl⟩ := execUpdate_cases h <;> simp at hout
  | finalize =>
    obtain ⟨-, rfl⟩ | ⟨v, c, -, -, rfl⟩ := execFinalize_cases h
    · simp at hout
    · obtain rfl : digest v (finalizeCtx config c).h = b := by simpa using hout
      exact ⟨v, finalizeCtx config c, rfl, rfl, length_digest _ _, rfl⟩
  | reset => obtain ⟨-, rfl⟩ | ⟨v, c, c', -, -, rfl⟩ := execReset_cases h <;> simp at hout
  | hash vid salt key data =>
    obtain ⟨e, -, rfl⟩ | ⟨v, c, -, hc, rfl⟩ := execHash_cases h
    · simp at hout
    · obtain rfl : digest v c.h = b := by simpa using hout
      exact ⟨v, c, rfl, hashCtx_phase hc, length_digest _ _, rfl⟩

end Sys2Proof.Machine
end

section
/-! The invariants of a context (10_state.md section 5): the commands that make a context establish them, and every step
keeps them. -/

namespace Sys2Proof.Machine

variable {s t : State} {v : Variant} {c c' : Ctx v} {data : List Byte}

/-- A context of the invariant's engine is well formed. -/
theorem State.Inv.wf (h : s.Inv) (he : s.engine = .live v c) : c.Wf := by
  rw [State.Inv, he] at h
  exact h

/-- Settles O53: in `Void` there is no context. -/
theorem invariantHoldsAtReset : Obligations.InvariantHoldsAtReset := trivial

/-- Within the contract absorbing keeps `T` a whole number of bytes and `FILL` tied to it (R14, R21). -/
theorem absorb_counts (cfg : Config) (hfits : c.fits data = true) (h8 : c.t.toNat % 8 = 0)
    (hfill : c.fill = c.t.toNat / 8 % v.bs) :
    (absorb cfg c data).t.toNat % 8 = 0 ∧ (absorb cfg c data).fill = (absorb cfg c data).t.toNat / 8 % v.bs := by
  have hlt : c.fill < v.bs := hfill ▸ Nat.mod_lt _ (bs_pos v)
  have hdiv : (c.t.toNat + 8 * data.length) / 8 = c.t.toNat / 8 + data.length := by omega
  rw [absorb_t_toNat cfg data c hfits, absorb_fill cfg data c hlt, hfill, hdiv, Nat.mod_add_mod]
  exact ⟨by omega, rfl⟩

/-- INIT without key establishes the invariants (R82). -/
theorem freshCtx_wf (salt : SaltWords v) : (freshCtx v salt).Wf where
  fill_lt := memory_wf_nil v
  bytes_whole := by simp [freshCtx]
  fill_eq := by simp [freshCtx, Ctx.fill]
  finalized_empty := nofun
  fresh_start _ _ := rfl
  accumulating_pos := nofun
  key_length := nofun
  key_salt := nofun
  key_accepted := nofun

/-- INIT with a key of the right length establishes the invariants (R83). -/
theorem keyedCtx_wf {salt : SaltWords v} {key : List Byte} (hlen : key.length = v.out)
    (h : keyedCtx config v salt key = some c) : c.Wf := by
  have hsome : (keyedCtx config v salt key).isSome = true := by rw [h]; rfl
  have hmem := createCtx_memory_wf config (key := some key) h
  obtain ⟨hfits, rfl⟩ := keyedCtx_cases config h
  obtain ⟨h8, hfill⟩ := absorb_counts config hfits (by simp [keyedStart]) (by simp [keyedStart, Ctx.fill])
  have hk : ∀ k, (absorb config (keyedStart config v salt key) (config.keyMix v salt key).prefixBytes).k = some k →
      k = ⟨key, salt⟩ := by
    intro k hk
    rw [absorb_k] at hk
    exact (Option.some.inj hk).symm
  exact {
    fill_lt := hmem
    bytes_whole := h8
    fill_eq := fun _ => hfill
    finalized_empty := fun hp => by rw [absorb_phase] at hp; cases hp
    fresh_start := fun _ hk => by rw [absorb_k] at hk; cases hk
    accumulating_pos := fun hp => by rw [absorb_phase] at hp; cases hp
    key_length := fun k h => by rw [hk k h]; exact hlen
    key_salt := fun k h => by rw [hk k h, absorb_s]; rfl
    key_accepted := fun k h => by rw [hk k h]; exact hsome }

/-- INIT whose operands pass their checks establishes the invariants (R82, R83, R107). -/
theorem createCtx_wf {salt : SaltWords v} {key : Option (List Byte)} (hok : keyLengthOk v key = true)
    (h : createCtx config v salt key = some c) : c.Wf := by
  cases key with
  | none => rw [← Option.some.inj h]; exact freshCtx_wf salt
  | some key => exact keyedCtx_wf (by simpa [keyLengthOk] using hok) h

/-- UPDATE keeps the invariants (R84, R89). -/
theorem updateCtx_wf (hc : c.Wf) (hp : c.phase ≠ .finalized) (h : updateCtx config c data = some c') : c'.Wf := by
  obtain ⟨-, rfl⟩ | ⟨hne, hfits, rfl⟩ := updateCtx_cases config h
  · exact hc
  obtain ⟨h8, hfill⟩ := absorb_counts config hfits hc.bytes_whole (hc.fill_eq hp)
  have ht := absorb_t_toNat config data c hfits
  have hpos := List.length_pos_of_ne_nil hne
  exact {
    fill_lt := absorb_memory_wf config data c hc.fill_lt
    bytes_whole := h8
    fill_eq := fun _ => hfill
    finalized_empty := nofun
    fresh_start := nofun
    accumulating_pos := fun _ => by change 0 < (absorb config c data).t.toNat; omega
    key_length := by simpa using hc.key_length
    key_salt := by simpa using hc.key_salt
    key_accepted := by simpa using hc.key_accepted }

/-- FINALIZE keeps the invariants (R99). -/
theorem finalizeCtx_wf (hc : c.Wf) : (finalizeCtx config c).Wf where
  fill_lt := memory_wf_nil v
  bytes_whole := hc.bytes_whole
  fill_eq hp := absurd rfl hp
  finalized_empty _ := rfl
  fresh_start := nofun
  accumulating_pos := nofun
  key_length := hc.key_length
  key_salt := hc.key_salt
  key_accepted := hc.key_accepted

/-- RESET establishes the invariants again (R88). -/
theorem resetCtx_wf (hc : c.Wf) (h : resetCtx config c = some c') : c'.Wf := by
  obtain ⟨-, rfl⟩ | ⟨k, hk, hkeyed⟩ := resetCtx_cases config h
  · exact freshCtx_wf c.s
  · exact keyedCtx_wf (hc.key_length k hk) hkeyed

/-- HASH whose operands pass their checks establishes the invariants (R101). -/
theorem hashCtx_wf {salt : SaltWords v} {key : Option (List Byte)} (hok : keyLengthOk v key = true)
    (h : hashCtx config v salt key data = some c) : c.Wf := by
  obtain ⟨c1, c2, h1, h2, rfl⟩ := hashCtx_cases h
  have hopen : c1.phase ≠ .finalized := by rw [createCtx_phase h1]; nofun
  exact finalizeCtx_wf (updateCtx_wf (createCtx_wf hok h1) hopen h2)

/-- Operands that pass the checks have a key of the right length, if any (R107). -/
theorem keyLengthOk_of_checkOperands {vid : BitVec 16} {key : Option (List Byte)}
    (h : checkOperands vid key = .ok v) : keyLengthOk v key = true := by
  obtain ⟨-, hc⟩ | ⟨v', -, -, hc⟩ | ⟨v', -, hk, hc⟩ := checkOperands_cases vid key
  · cases h.symm.trans hc
  · cases h.symm.trans hc
  · cases h.symm.trans hc
    exact hk

/-- Every command keeps the invariants. -/
theorem exec_inv {i : Instr} (hs : s.Inv) (h : exec i s = .next t) : t.Inv := by
  cases i with
  | describe vid => obtain rfl | ⟨v, -, rfl⟩ := execDescribe_cases h <;> exact hs
  | init vid salt key =>
    obtain ⟨e, -, rfl⟩ | ⟨v, c, hops, hc, rfl⟩ := execInit_cases h
    · exact hs
    · exact createCtx_wf (keyLengthOk_of_checkOperands hops) hc
  | update data =>
    obtain ⟨-, rfl⟩ | ⟨v, c, c', he, hp, hc, rfl⟩ := execUpdate_cases h
    · exact hs
    · exact updateCtx_wf (hs.wf he) hp hc
  | finalize =>
    obtain ⟨-, rfl⟩ | ⟨v, c, he, hp, rfl⟩ := execFinalize_cases h
    · exact hs
    · exact finalizeCtx_wf (hs.wf he)
  | reset =>
    obtain ⟨-, rfl⟩ | ⟨v, c, c', he, hc, rfl⟩ := execReset_cases h
    · exact hs
    · exact resetCtx_wf (hs.wf he) hc
  | hash vid salt key data =>
    obtain ⟨e, -, rfl⟩ | ⟨v, c, hops, hc, rfl⟩ := execHash_cases h
    · exact hs
    · exact hashCtx_wf (keyLengthOk_of_checkOperands hops) hc

/-- Settles O54: the idle step and a rejected word keep the engine, a hardware reset voids it, and every command keeps
the invariants. -/
theorem stepKeepsTheInvariant : Obligations.StepKeepsTheInvariant := by
  intro s t hs h
  obtain ⟨-, rfl⟩ | ⟨rest, -, rfl⟩ | ⟨r, rest, why, -, -, rfl⟩ | ⟨r, rest, i, -, -, hexec⟩ := step_cases h
  · exact hs
  · exact trivial
  · exact hs
  · exact exec_inv hs hexec

/-- RESET keeps salt and key (R10, R13, R17): the keyed start takes its salt from the retained operands. -/
theorem resetCtx_keeps_operands (hc : c.Wf) (h : resetCtx config c = some c') : c'.s = c.s ∧ c'.k = c.k := by
  obtain ⟨hk, rfl⟩ | ⟨k, hk, hkeyed⟩ := resetCtx_cases config h
  · exact ⟨rfl, hk.symm⟩
  · obtain ⟨-, rfl⟩ := keyedCtx_cases config hkeyed
    rw [absorb_s, absorb_k, hk, hc.key_salt k hk]
    exact ⟨rfl, rfl⟩

/-- UPDATE keeps salt and key (R84). -/
theorem updateCtx_keeps_operands {cfg : Config} (h : updateCtx cfg c data = some c') : c'.s = c.s ∧ c'.k = c.k := by
  obtain ⟨-, rfl⟩ | ⟨-, -, rfl⟩ := updateCtx_cases cfg h
  · exact ⟨rfl, rfl⟩
  · exact ⟨absorb_s cfg data c, absorb_k cfg data c⟩

/-- Settles O57: a rejection and DESCRIBE keep the engine; UPDATE, FINALIZE and RESET keep salt and key of its
context. -/
theorem variantSaltKeyAreImmutable : Obligations.VariantSaltKeyAreImmutable := by
  intro i s t v c hs he h hinit hhash
  cases i with
  | describe vid => obtain rfl | ⟨v', -, rfl⟩ := execDescribe_cases h <;> exact ⟨c, he, rfl, rfl⟩
  | init vid salt key => exact absurd rfl (hinit vid salt key)
  | update data =>
    obtain ⟨-, rfl⟩ | ⟨v', c1, c', he', -, hc, rfl⟩ := execUpdate_cases h
    · exact ⟨c, he, rfl, rfl⟩
    · cases he.symm.trans he'
      exact ⟨c', rfl, updateCtx_keeps_operands hc⟩
  | finalize =>
    obtain ⟨-, rfl⟩ | ⟨v', c1, he', -, rfl⟩ := execFinalize_cases h
    · exact ⟨c, he, rfl, rfl⟩
    · cases he.symm.trans he'
      exact ⟨_, rfl, rfl, rfl⟩
  | reset =>
    obtain ⟨-, rfl⟩ | ⟨v', c1, c', he', hc, rfl⟩ := execReset_cases h
    · exact ⟨c, he, rfl, rfl⟩
    · cases he.symm.trans he'
      exact ⟨c', rfl, resetCtx_keeps_operands (hs.wf he) hc⟩
  | hash vid salt key data => exact absurd rfl (hhash vid salt key data)

end Sys2Proof.Machine
end

section
/-! The contract on the total input length (R84, 93 U3; assumption log 7 and 8): where each accepted part gives a
context, and that a command is refused exactly elsewhere. -/

namespace Sys2Proof.Machine

variable {s t : State} {v : Variant} {c c' : Ctx v} {data : List Byte} {cfg : Config} {salt : SaltWords v}
  {key : Option (List Byte)}

/-- The accepted part of INIT exists when `P` is within the contract (log 8). -/
theorem createCtx_isSome_iff :
    (createCtx config v salt key).isSome = true ↔ prefixBits v salt key ≤ v.maxBits := by
  cases key with
  | none => simp [createCtx, prefixBits]
  | some key =>
    rw [createCtx, keyedCtx_eq, prefixBits]
    split_ifs with hfits <;> simp [hfits]

/-- `T` after INIT counts the bytes of `P` (R83). -/
theorem createCtx_t (h : createCtx config v salt key = some c) : c.t.toNat = prefixBits v salt key := by
  cases key with
  | none => rw [← Option.some.inj h]; simp [freshCtx, prefixBits]
  | some key =>
    obtain ⟨hfits, rfl⟩ := keyedCtx_cases config h
    rw [absorb_t_toNat _ _ _ hfits]
    simp [keyedStart, prefixBits]

/-- The accepted part of UPDATE exists when the total is within the contract; without data it always is (R84, R89). -/
theorem updateCtx_isSome_iff :
    (updateCtx cfg c data).isSome = true ↔ c.t.toNat + 8 * data.length ≤ v.maxBits := by
  unfold updateCtx
  split_ifs with hnil hfits
  · subst hnil
    have hlt : c.t.toNat < 2 ^ v.tw := c.t.isLt
    exact iff_of_true rfl (Nat.le_sub_one_of_lt hlt)
  · exact iff_of_true rfl ((fits_iff c data).1 hfits)
  · exact iff_of_false nofun fun h => hfits ((fits_iff c data).2 h)

/-- The accepted part of HASH as a composition of those of INIT, UPDATE and FINALIZE (R101). -/
theorem hashCtx_eq_bind : hashCtx cfg v salt key data =
    (createCtx cfg v salt key).bind fun c => (updateCtx cfg c data).map (finalizeCtx cfg) := by
  unfold hashCtx
  cases createCtx cfg v salt key with
  | none => rfl
  | some c =>
    rw [Option.bind_some]
    cases hc : updateCtx cfg c data <;> simp only [hc, Option.map_none, Option.map_some]

/-- The accepted part of HASH exists when `P` and data together are within the contract (R101, log 8). -/
theorem hashCtx_isSome_iff :
    (hashCtx config v salt key data).isSome = true ↔ prefixBits v salt key + 8 * data.length ≤ v.maxBits := by
  rw [hashCtx_eq_bind]
  cases hc : createCtx config v salt key with
  | none =>
    have hprefix : ¬prefixBits v salt key ≤ v.maxBits := by rw [← createCtx_isSome_iff, hc]; nofun
    exact iff_of_false nofun (by omega)
  | some c => rw [← createCtx_t hc, ← updateCtx_isSome_iff (cfg := config), Option.bind_some, Option.isSome_map]

/-- The accepted part of RESET exists when `P` of the retained key is within the contract (R88, log 8). -/
theorem resetCtx_isSome_iff :
    (resetCtx config c).isSome = true ↔ ∀ k, c.k = some k → prefixBits v k.salt (some k.bytes) ≤ v.maxBits := by
  cases hk : c.k with
  | none => rw [resetCtx_of_unkeyed config hk]; simp
  | some k =>
    rw [resetCtx_of_keyed config hk]
    simp [← createCtx_isSome_iff, createCtx]

/-- A command completes under a condition, and is refused as too long without it (93 U3). -/
def CompletesExactly (p : Prop) (o : Host.Outcome State Fault Refusal) : Prop :=
  (p → ∃ t, o = .next t) ∧ (¬p → o = .refused .inputTooLong)

theorem completesExactly_next {p : Prop} (hp : p) (t : State) : CompletesExactly p (.next t) :=
  ⟨fun _ => ⟨t, rfl⟩, fun h => absurd hp h⟩

theorem completesExactly_complete {p : Prop} {payload : Ctx v → Payload} {o : Option (Ctx v)}
    (h : o.isSome = true ↔ p) : CompletesExactly p (s.complete payload o) := by
  cases o with
  | none => exact ⟨fun hp => absurd (h.2 hp) nofun, fun _ => rfl⟩
  | some c => exact completesExactly_next (h.1 rfl) _

/-- Settles O55: a rejected command and one without input are in the contract; any other completes by its accepted part,
which exists exactly within the contract. -/
theorem commandsCompleteWithinContract : Obligations.CommandsCompleteWithinContract := by
  intro i s
  change CompletesExactly (InContract i s) (exec i s)
  cases i with
  | describe vid =>
    cases hv : Variant.ofVid vid with
    | none => rw [exec_describe_unsupported hv]; exact completesExactly_next trivial _
    | some v => rw [eq_vid_of_ofVid hv, exec_describe_vid]; exact completesExactly_next trivial _
  | init vid salt key =>
    cases hops : checkOperands vid key with
    | error e => rw [exec_init_of_error hops]; exact completesExactly_next (by simp [InContract, hops]) _
    | ok v =>
      rw [exec_init_of_ok hops]
      exact completesExactly_complete (by simp [InContract, hops, createCtx_isSome_iff])
  | update data =>
    cases he : s.engine with
    | void =>
      rw [exec_update_of_closed (.inl (State.st_eq_void_iff.2 he))]
      exact completesExactly_next (by simp [InContract, he]) _
    | live v c =>
      by_cases hp : c.phase = .finalized
      · rw [exec_update_of_closed (State.st_closed_iff.2 (.inr ⟨v, c, he, hp⟩))]
        refine completesExactly_next (fun v' c' he' hp' => ?_) _
        cases he.symm.trans he'
        exact absurd hp hp'
      · rw [exec_update_of_open he hp]
        refine completesExactly_complete (updateCtx_isSome_iff.trans ⟨fun h v' c' he' hp' => ?_, fun h => h v c he hp⟩)
        cases he.symm.trans he'
        exact h
  | finalize =>
    cases he : s.engine with
    | void =>
      rw [exec_finalize_of_closed (.inl (State.st_eq_void_iff.2 he))]
      exact completesExactly_next trivial _
    | live v c =>
      by_cases hp : c.phase = .finalized
      · rw [exec_finalize_of_closed (State.st_closed_iff.2 (.inr ⟨v, c, he, hp⟩))]
        exact completesExactly_next trivial _
      · rw [exec_finalize_of_open he hp]
        exact completesExactly_next trivial _
  | reset =>
    cases he : s.engine with
    | void =>
      rw [exec_reset_of_void (State.st_eq_void_iff.2 he)]
      exact completesExactly_next (by simp [InContract, he]) _
    | live v c =>
      rw [exec_reset_of_live he]
      refine completesExactly_complete (resetCtx_isSome_iff.trans ⟨fun h v' c' k he' hk => ?_, fun h k => h v c k he⟩)
      cases he.symm.trans he'
      exact h k hk
  | hash vid salt key data =>
    cases hops : checkOperands vid key with
    | error e => rw [exec_hash_of_error hops]; exact completesExactly_next (by simp [InContract, hops]) _
    | ok v =>
      rw [exec_hash_of_ok hops]
      exact completesExactly_complete (by simp [InContract, hops, hashCtx_isSome_iff])

/-- Under the invariant RESET is within the contract: its key was accepted before (R88). -/
theorem inContract_reset (hs : s.Inv) : InContract .reset s := by
  intro v c k he hk
  exact createCtx_isSome_iff.1 ((hs.wf he).key_accepted k hk)

/-- Settles O56: a refused command left the contract, and the other commands are always within it. -/
theorem onlyInputLeavesTheContract : Obligations.OnlyInputLeavesTheContract := by
  intro i s e hs h
  obtain ⟨hin, hout⟩ := commandsCompleteWithinContract i s
  have hleft : ¬InContract i s := by
    intro hcontract
    obtain ⟨t, ht⟩ := hin hcontract
    cases h.symm.trans ht
  have he : e = .inputTooLong := by
    cases h.symm.trans (hout hleft)
    rfl
  refine ⟨he, ?_⟩
  cases i with
  | describe vid => exact absurd trivial hleft
  | init vid salt key =>
    cases key with
    | none => exact absurd (fun v _ => Nat.zero_le _) hleft
    | some key => exact .inr (.inl ⟨vid, salt, key, rfl⟩)
  | update data => exact .inl ⟨data, rfl⟩
  | finalize => exact absurd trivial hleft
  | reset => exact absurd (inContract_reset hs) hleft
  | hash vid salt key data => exact .inr (.inr ⟨vid, salt, key, data, rfl⟩)

end Sys2Proof.Machine
end

section
/-! UPDATE (42_context_commands.md R84 to R91): what it absorbs, its composition, and its block-level form. -/

namespace Sys2Proof.Machine

variable {s : State} {v : Variant} {c c' : Ctx v} (cfg : Config)

/-- Absorbing does not look at `ST` (R85). -/
theorem absorb_setPhase (p : Phase) (data : List Byte) (c : Ctx v) :
    absorb cfg { c with phase := p } data = { absorb cfg c data with phase := p } := by
  induction data generalizing c with
  | nil => rfl
  | cons x xs ih =>
    have hbyte : absorbByte cfg { c with phase := p } x = { absorbByte cfg c x with phase := p } := by
      unfold absorbByte
      rw [apply_ite fun c : Ctx v => ({ c with phase := p } : Ctx v)]
      rfl
    rw [absorb_cons, absorb_cons, hbyte, ih]

/-- The accepted part of UPDATE with data within the contract (R84). -/
theorem updateCtx_of_fits {data : List Byte} (hne : data ≠ []) (hfits : c.fits data = true) :
    updateCtx cfg c data = some { absorb cfg c data with phase := .accumulating } := by
  rw [updateCtx, if_neg hne, if_pos hfits]

/-- Settles O36: the accepted part is the loop over the bytes, whose effect on `T` and `FILL` the laws of absorbing
say. -/
theorem updateAbsorbsItsData : Obligations.UpdateAbsorbsItsData := by
  intro v c s data he hp hfill hne hmax
  have hfits : c.fits data = true := (fits_iff c data).2 hmax
  refine ⟨{ absorb config c data with phase := .accumulating }, ?_, rfl, rfl, rfl, absorb_s config data c,
    absorb_k config data c, absorb_t_toNat config data c hfits, absorb_fill config data c hfill⟩
  rw [exec_update_of_open he hp, updateCtx_of_fits config hne hfits]
  rfl

/-- `T` after an accepted UPDATE (R84). -/
theorem updateCtx_t {data : List Byte} (h : updateCtx cfg c data = some c') :
    c'.t.toNat = c.t.toNat + 8 * data.length := by
  obtain ⟨rfl, rfl⟩ | ⟨-, hfits, rfl⟩ := updateCtx_cases cfg h
  · rfl
  · exact absorb_t_toNat cfg data c hfits

/-- The accepted part of one UPDATE of two pieces is that of two UPDATEs (R91). -/
theorem updateCtx_append (x y : List Byte) :
    updateCtx cfg c (x ++ y) = (updateCtx cfg c x).bind fun c' => updateCtx cfg c' y := by
  cases hx : updateCtx cfg c x with
  | none =>
    have hover : ¬c.t.toNat + 8 * x.length ≤ v.maxBits := by rw [← updateCtx_isSome_iff (cfg := cfg), hx]; nofun
    rw [Option.bind_none, ← Option.not_isSome_iff_eq_none, updateCtx_isSome_iff, List.length_append]
    omega
  | some c1 =>
    rw [Option.bind_some]
    have ht := updateCtx_t cfg hx
    obtain ⟨rfl, rfl⟩ | ⟨hxne, -, rfl⟩ := updateCtx_cases cfg hx
    · rfl
    by_cases hy : y = []
    · subst hy
      rw [List.append_nil, hx]
      rfl
    · have hfits : c.fits (x ++ y) = Ctx.fits { absorb cfg c x with phase := .accumulating } y := by
        rw [Bool.eq_iff_iff, fits_iff, fits_iff, ht, List.length_append, Nat.mul_add, Nat.add_assoc]
      unfold updateCtx
      rw [if_neg hy, if_neg (List.append_ne_nil_of_right_ne_nil x hy), hfits, absorb_append,
        absorb_setPhase cfg .accumulating y (absorb cfg c x)]

/-- A context that has taken an UPDATE takes input still (R81). -/
theorem updateCtx_open {data : List Byte} (hp : c.phase ≠ .finalized) (h : updateCtx cfg c data = some c') :
    c'.phase ≠ .finalized := by
  obtain ⟨-, rfl⟩ | ⟨-, -, rfl⟩ := updateCtx_cases cfg h
  · exact hp
  · nofun

/-- What absorbing leaves is known but for the chain value and the buffer (R85). -/
theorem absorb_eq {data : List Byte} {h' : ChainValue v} {buf' : List Byte} (hh : (absorb cfg c data).h = h')
    (hbuf : (absorb cfg c data).buf = buf') :
    absorb cfg c data = ⟨c.phase, h', c.s, c.t + BitVec.ofNat v.tw (8 * data.length), buf', c.k⟩ := by
  rw [← hh, ← hbuf, ← absorb_t cfg data c, ← absorb_phase cfg data c, ← absorb_s cfg data c, ← absorb_k cfg data c]

/-- Bytes that leave the buffer short of a full block are kept (R85). -/
theorem absorb_short (data : List Byte) (c : Ctx v) (h : c.fill + data.length < v.bs) :
    (absorb cfg c data).h = c.h ∧ (absorb cfg c data).buf = c.buf ++ data := by
  induction data generalizing c with
  | nil => simp
  | cons x xs ih =>
    rw [List.length_cons] at h
    obtain ⟨hfull, -⟩ | ⟨-, hx⟩ := absorbByte_cases cfg c x
    · omega
    have hfill : (c.push x).fill = c.fill + 1 := by simp [Ctx.fill]
    obtain ⟨hh, hbuf⟩ := ih (c.push x) (by omega)
    rw [absorb_cons, hx, hh, hbuf]
    simp

/-- Bytes that just fill the buffer are compressed with it, the counter having counted them (R85). -/
theorem absorb_full (data : List Byte) (c : Ctx v) (hc : c.fill < v.bs) (h : c.fill + data.length = v.bs) :
    (absorb cfg c data).h = compress cfg v c.h (loadBlock v (c.buf ++ data)) c.s
      (c.t + BitVec.ofNat v.tw (8 * data.length)) false ∧ (absorb cfg c data).buf = [] := by
  obtain rfl | ⟨d, x, rfl⟩ := data.eq_nil_or_concat'
  · simp at h; omega
  rw [List.length_append, List.length_singleton] at h
  have hlt : c.fill + d.length < v.bs := by omega
  obtain ⟨hh, hbuf⟩ := absorb_short cfg d c hlt
  have hfill : (absorb cfg c d).fill + 1 = v.bs := by
    rw [absorb_fill cfg d c hc, Nat.mod_eq_of_lt hlt]
    omega
  have hlast : absorb cfg c (d ++ [x]) = ((absorb cfg c d).push x).compressFull cfg := by
    obtain ⟨-, hx⟩ | ⟨hne, -⟩ := absorbByte_cases cfg (absorb cfg c d) x
    · rw [absorb_append, absorb_cons, absorb_nil, hx]
    · exact absurd hfill hne
  have ht : ((absorb cfg c d).push x).t = c.t + BitVec.ofNat v.tw (8 * (d ++ [x]).length) := by
    rw [← absorb_t cfg, hlast, Ctx.compressFull_t]
  rw [hlast, Ctx.compressFull_h, Ctx.compressFull_buf, ht, Ctx.push_h, Ctx.push_buf, Ctx.push_s, memWrite_fill, hh,
    hbuf, absorb_s, List.append_assoc]
  exact ⟨rfl, rfl⟩

/-- The first `n` blocks of the data, absorbed from an empty buffer (R86). -/
theorem absorb_blocks (data : List Byte) (c : Ctx v) (hc : c.buf = []) (n : Nat) (h : n * v.bs ≤ data.length) :
    (absorb cfg c (data.take (n * v.bs))).h = (List.range n).foldl (foldBlock cfg c data 0) c.h ∧
      (absorb cfg c (data.take (n * v.bs))).buf = [] := by
  induction n with
  | zero => simp [hc]
  | succ n ih =>
    rw [Nat.succ_mul] at h
    obtain ⟨hh, hbuf⟩ := ih (by omega)
    have hfill : (absorb cfg c (data.take (n * v.bs))).fill = 0 := by rw [Ctx.fill, hbuf]; rfl
    have hblock : ((data.drop (n * v.bs)).take v.bs).length = v.bs := by simp; omega
    have hlen : (data.take (n * v.bs)).length = n * v.bs := by simp; omega
    obtain ⟨hh', hbuf'⟩ := absorb_full cfg ((data.drop (n * v.bs)).take v.bs) (absorb cfg c (data.take (n * v.bs)))
      (by rw [hfill]; exact bs_pos v) (by rw [hfill, hblock, Nat.zero_add])
    rw [Nat.succ_mul, List.take_add, absorb_append, hh', hbuf', List.range_succ, List.foldl_concat, hh, hbuf, absorb_s,
      absorb_t, hlen, hblock, BitVec.add_assoc, ← BitVec.ofNat_add, foldBlock, List.nil_append, Nat.zero_add,
      Nat.zero_add, ← Nat.mul_add, ← Nat.succ_mul]
    exact ⟨rfl, rfl⟩

/-- All the data, absorbed from an empty buffer: its whole blocks are compressed, the rest is kept (R86). -/
theorem absorb_of_empty (data : List Byte) (c : Ctx v) (hc : c.buf = []) :
    (absorb cfg c data).h = (List.range (data.length / v.bs)).foldl (foldBlock cfg c data 0) c.h ∧
      (absorb cfg c data).buf = data.drop (data.length / v.bs * v.bs) := by
  have hle : data.length / v.bs * v.bs ≤ data.length := Nat.div_mul_le_self _ _
  obtain ⟨hh, hbuf⟩ := absorb_blocks cfg data c hc _ hle
  have hrest : (data.drop (data.length / v.bs * v.bs)).length < v.bs := by
    rw [List.length_drop, ← Nat.mod_eq_sub_div_mul]
    exact Nat.mod_lt _ (bs_pos v)
  have hfill : (absorb cfg c (data.take (data.length / v.bs * v.bs))).fill = 0 := by rw [Ctx.fill, hbuf]; rfl
  obtain ⟨hh', hbuf'⟩ := absorb_short cfg (data.drop (data.length / v.bs * v.bs))
    (absorb cfg c (data.take (data.length / v.bs * v.bs))) (by omega)
  rw [← absorb_append, List.take_append_drop] at hh' hbuf'
  rw [hh', hbuf', hh, hbuf, List.nil_append]
  exact ⟨rfl, rfl⟩

/-- Blocks counted from where the buffer has just been emptied are blocks counted from the command's start (R86). -/
theorem foldBlock_drop (data : List Byte) (first : Nat) (hs : c'.s = c.s)
    (ht : c'.t = c.t + BitVec.ofNat v.tw (8 * first)) :
    foldBlock cfg c' (data.drop first) 0 = foldBlock cfg c data first := by
  funext h j
  rw [foldBlock, foldBlock, List.drop_drop, Nat.zero_add, Nat.zero_add, hs, ht, BitVec.add_assoc, ← BitVec.ofNat_add,
    ← Nat.mul_add]

/-- Settles O39: the first bytes fill the buffer, and from there on whole blocks are absorbed. -/
theorem blockwiseUpdateEqualsByteLoop : Obligations.BlockwiseUpdateEqualsByteLoop := by
  intro cfg v c data hc
  unfold absorbBlocks
  dsimp only
  split_ifs with hshort
  · obtain ⟨hh, hbuf⟩ := absorb_short cfg data c hshort
    rw [memWrite_fill]
    exact absorb_eq cfg hh hbuf
  · have hlen : (data.take (v.bs - c.fill)).length = v.bs - c.fill := by simp; omega
    obtain ⟨hh, hbuf⟩ := absorb_full cfg (data.take (v.bs - c.fill)) c hc (by omega)
    obtain ⟨hh', hbuf'⟩ := absorb_of_empty cfg (data.drop (v.bs - c.fill)) _ hbuf
    have ht := absorb_t cfg (data.take (v.bs - c.fill)) c
    rw [hlen] at hh ht
    rw [← absorb_append, List.take_append_drop] at hh' hbuf'
    rw [hh, foldBlock_drop cfg data _ (absorb_s cfg _ c) ht, List.length_drop] at hh'
    have hrest : v.bs - c.fill + (data.length - (v.bs - c.fill)) / v.bs * v.bs =
        data.length - (data.length - (v.bs - c.fill)) % v.bs := by
      have := Nat.div_add_mod' (data.length - (v.bs - c.fill)) v.bs
      omega
    rw [List.drop_drop, List.length_drop, hrest] at hbuf'
    exact absorb_eq cfg hh' hbuf'

/-- Settles O40: a fresh context has an empty buffer and `T = 0`. -/
theorem interiorCountersAreBlockMultiples : Obligations.InteriorCountersAreBlockMultiples := by
  intro cfg v salt data
  obtain ⟨hh, -⟩ := absorb_of_empty cfg data (freshCtx v salt) rfl
  have hstep : foldBlock cfg (freshCtx v salt) data 0 = fun h j =>
      compress cfg v h (loadBlock v ((data.drop (j * v.bs)).take v.bs)) salt
        (BitVec.ofNat v.tw (8 * v.bs * (j + 1))) false := by
    funext h j
    simp only [foldBlock, freshCtx, Nat.zero_add, BitVec.ofNat_eq_ofNat, BitVec.zero_add]
    rw [Nat.mul_comm (j + 1), Nat.mul_assoc]
  rw [hh, hstep]
  rfl

end Sys2Proof.Machine
end

section
/-! Streams of commands (R41, R91, R103): INIT, any UPDATEs, FINALIZE, against HASH of the bytes of all of them. -/

namespace Sys2Proof.Machine

variable {s t : State} {v : Variant} {c c' : Ctx v} {i : Instr} {is : List Instr} {salt : Option SaltOperand}
  {key : Option (List Byte)} {data : List Byte}

theorem execAll_cons_of_next (h : exec i s = .next t) : execAll (i :: is) s = execAll is t := by
  simp only [execAll, h]

theorem execAll_cons_of_refused {e : Refusal} (h : exec i s = .refused e) : execAll (i :: is) s = .refused e := by
  simp only [execAll, h]

/-- UPDATEs in a row do what one UPDATE of all their bytes does, where that is accepted (R91). -/
theorem execAll_updates_of_some (chunks : List (List Byte)) (he : s.engine = .live v c) (hp : c.phase ≠ .finalized)
    (h : updateCtx config c chunks.flatten = some c') :
    ∃ t, t.engine = .live v c' ∧ ∀ is, execAll (chunks.map .update ++ is) s = execAll is t := by
  induction chunks generalizing s c with
  | nil =>
    obtain rfl : c = c' := Option.some.inj h
    exact ⟨s, he, fun _ => rfl⟩
  | cons x xs ih =>
    rw [List.flatten_cons, updateCtx_append] at h
    obtain ⟨c1, hx, hxs⟩ := Option.bind_eq_some_iff.1 h
    have hexec : exec (.update x) s = .next (s.ended (.live v c1) .ok .none) := by
      rw [exec_update_of_open he hp, hx]
      rfl
    obtain ⟨t, ht, hrun⟩ := ih (s := s.ended (.live v c1) .ok .none) rfl (updateCtx_open config hp hx) hxs
    exact ⟨t, ht, fun is => (execAll_cons_of_next hexec).trans (hrun is)⟩

/-- UPDATEs in a row are refused where one UPDATE of all their bytes is (R84, R91). -/
theorem execAll_updates_of_none (chunks : List (List Byte)) (he : s.engine = .live v c) (hp : c.phase ≠ .finalized)
    (h : updateCtx config c chunks.flatten = none) (is : List Instr) :
    execAll (chunks.map .update ++ is) s = .refused .inputTooLong := by
  induction chunks generalizing s c with
  | nil => cases h
  | cons x xs ih =>
    rw [List.flatten_cons, updateCtx_append] at h
    have hexec := exec_update_of_open (data := x) he hp
    cases hx : updateCtx config c x with
    | none =>
      rw [hx] at hexec
      exact execAll_cons_of_refused hexec
    | some c1 =>
      rw [hx] at h hexec
      exact (execAll_cons_of_next hexec).trans (ih rfl (updateCtx_open config hp hx) h)

/-- UPDATEs and FINALIZE, from a context that takes input: the digest of the context finalized (R92). -/
theorem execAll_updates_finalize (chunks : List (List Byte)) (he : s.engine = .live v c) (hp : c.phase ≠ .finalized)
    (h : updateCtx config c chunks.flatten = some c') :
    ∃ t, execAll (chunks.map .update ++ [.finalize]) s = .next t ∧ t.engine = .live v (finalizeCtx config c') ∧
      t.lastResponse = some ⟨.ok, .digest (digest v (finalizeCtx config c').h)⟩ := by
  obtain ⟨t, ht, hrun⟩ := execAll_updates_of_some chunks he hp h
  refine ⟨_, ?_, t.ended_engine _ .ok _, t.ended_lastResponse _ _ _⟩
  rw [hrun, execAll_cons_of_next (exec_finalize_of_open ht (updateCtx_open config hp h)), execAll]

/-- INIT, UPDATEs, FINALIZE: the context that HASH makes of all the bytes, and its digest (R103). -/
theorem execAll_stream_of_some (chunks : List (List Byte)) (hops : checkOperands v.vid key = .ok v)
    (h : hashCtx config v (saltWords v salt) key chunks.flatten = some c) :
    ∃ t, execAll (.init v.vid salt key :: (chunks.map .update ++ [.finalize])) s = .next t ∧
      t.engine = .live v c ∧ t.lastResponse = some ⟨.ok, .digest (digest v c.h)⟩ := by
  obtain ⟨c1, c2, h1, h2, rfl⟩ := hashCtx_cases h
  have hexec : exec (.init v.vid salt key) s = .next (s.ended (.live v c1) .ok .none) := by
    rw [exec_init_of_ok hops, h1]
    rfl
  rw [execAll_cons_of_next hexec]
  exact execAll_updates_finalize chunks rfl (by rw [createCtx_phase h1]; nofun) h2

/-- INIT, UPDATEs, FINALIZE are refused where HASH of all the bytes is (R103). -/
theorem execAll_stream_of_none (chunks : List (List Byte)) (hops : checkOperands v.vid key = .ok v)
    (h : hashCtx config v (saltWords v salt) key chunks.flatten = none) :
    execAll (.init v.vid salt key :: (chunks.map .update ++ [.finalize])) s = .refused .inputTooLong := by
  rw [hashCtx_eq_bind] at h
  have hexec := exec_init_of_ok (s := s) (salt := salt) hops
  cases h1 : createCtx config v (saltWords v salt) key with
  | none =>
    rw [h1] at hexec
    exact execAll_cons_of_refused hexec
  | some c1 =>
    rw [h1] at h hexec
    rw [execAll_cons_of_next hexec]
    exact execAll_updates_of_none chunks rfl (by rw [createCtx_phase h1]; nofun) (Option.map_eq_none_iff.1 h) _

/-- HASH and the stream of its data in any chunks are accepted together, with one engine and one digest (R103). -/
theorem hash_agrees_with_stream (chunks : List (List Byte)) (salt : Option SaltOperand) (s : State)
    (hlen : ∀ k, key = some k → k.length = v.out) :
    (∀ t, exec (.hash v.vid salt key chunks.flatten) s = .next t →
      ∃ t', execAll (.init v.vid salt key :: (chunks.map .update ++ [.finalize])) s = .next t' ∧
        t'.engine = t.engine ∧ t'.lastResponse = t.lastResponse) ∧
    (∀ t', execAll (.init v.vid salt key :: (chunks.map .update ++ [.finalize])) s = .next t' →
      ∃ t, exec (.hash v.vid salt key chunks.flatten) s = .next t ∧ t.engine = t'.engine ∧
        t.lastResponse = t'.lastResponse) := by
  have hops := checkOperands_vid hlen
  rw [exec_hash_of_ok hops]
  cases hc : hashCtx config v (saltWords v salt) key chunks.flatten with
  | none =>
    refine ⟨nofun, fun t' ht' => ?_⟩
    cases (execAll_stream_of_none (s := s) chunks hops hc).symm.trans ht'
  | some c =>
    obtain ⟨t', hrun, heng, hresp⟩ := execAll_stream_of_some (s := s) chunks hops hc
    refine ⟨fun t ht => ?_, fun t'' ht'' => ?_⟩
    · cases ht
      exact ⟨t', hrun, heng, by simpa using hresp⟩
    · cases hrun.symm.trans ht''
      exact ⟨_, rfl, heng.symm, by simpa using hresp.symm⟩

/-- Settles O49: the stream with all the data in one chunk. -/
theorem hashIsInitUpdateFinalize : Obligations.HashIsInitUpdateFinalize := by
  intro v salt key data s hlen
  simpa using hash_agrees_with_stream [data] salt s hlen

/-- Settles O50: the stream with the data in two chunks. -/
theorem chunkBoundaryIndependence : Obligations.ChunkBoundaryIndependence := by
  intro v salt key x1 x2 s hlen
  simpa using hash_agrees_with_stream [x1, x2] salt s hlen

/-- A context in one of the two states of O38 takes input (R11). -/
theorem State.exists_open_of_st (h : s.st = .fresh ∨ s.st = .accumulating) :
    ∃ (v : Variant) (c : Ctx v), s.engine = .live v c ∧ c.phase ≠ .finalized := by
  have hopen : ¬(s.engine = .void ∨ ∃ v c, s.engine = .live v c ∧ c.phase = .finalized) := by
    rw [← State.st_closed_iff]
    rcases h with h | h <;> simp [h]
  cases he : s.engine with
  | void => exact absurd (.inl he) hopen
  | live v c => exact ⟨v, c, rfl, fun hp => hopen (.inr ⟨v, c, he, hp⟩)⟩

/-- Settles O38: the stream of the two UPDATEs, and the one UPDATE of their bytes together. -/
theorem splitUpdateIsOneUpdate : Obligations.SplitUpdateIsOneUpdate := by
  intro x y s hst
  obtain ⟨v, c, he, hp⟩ := State.exists_open_of_st hst
  rw [exec_update_of_open he hp]
  cases hc : updateCtx config c (x ++ y) with
  | none =>
    have hrun := execAll_updates_of_none [x, y] he hp (by simpa using hc) []
    refine ⟨nofun, fun t' ht' => ?_⟩
    cases hrun.symm.trans ht'
  | some c' =>
    obtain ⟨t', heng, hrun⟩ := execAll_updates_of_some [x, y] he hp (by simpa using hc)
    refine ⟨fun t ht => ?_, fun t'' ht'' => ?_⟩
    · cases ht
      exact ⟨t', hrun [], heng⟩
    · cases (hrun []).symm.trans ht''
      exact ⟨_, rfl, heng.symm⟩

/-- Settles O41: the UPDATEs do what one UPDATE of all the bytes does to a context with `T = 0` and an empty buffer. -/
theorem lengthCounterCountsEveryByte : Obligations.LengthCounterCountsEveryByte := by
  intro v salt chunks s t he h
  have hopen : (freshCtx v salt).phase ≠ .finalized := nofun
  cases hc : updateCtx config (freshCtx v salt) chunks.flatten with
  | none =>
    have hrun := execAll_updates_of_none chunks he hopen hc []
    rw [List.append_nil] at hrun
    cases hrun.symm.trans h
  | some c =>
    obtain ⟨t', heng, hrun⟩ := execAll_updates_of_some chunks he hopen hc
    specialize hrun []
    rw [List.append_nil] at hrun
    cases hrun.symm.trans h
    have hwf : c.Wf := updateCtx_wf (freshCtx_wf salt) hopen hc
    have ht : c.t.toNat = 8 * chunks.flatten.length := by
      rw [updateCtx_t config hc]
      simp [freshCtx]
    have hfill : c.fill = chunks.flatten.length % v.bs := by
      rw [hwf.fill_eq (updateCtx_open config hopen hc), ht, Nat.mul_div_cancel_left _ (by decide)]
    exact ⟨c, heng, ht, hfill, by rw [hfill, Nat.div_add_mod, ht]⟩

/-- The accepted part of FINALIZE does not look at `ST` (R92). -/
theorem finalizeCtx_setPhase (cfg : Config) (p : Phase) (c : Ctx v) :
    finalizeCtx cfg { c with phase := p } = finalizeCtx cfg c := rfl

/-- UPDATE within the contract and FINALIZE, in one context (R101). -/
theorem updateCtx_map_finalizeCtx (cfg : Config) (h : c.fits data = true) :
    (updateCtx cfg c data).map (finalizeCtx cfg) = some (finalizeCtx cfg (absorb cfg c data)) := by
  by_cases hne : data = []
  · subst hne
    rfl
  · rw [updateCtx_of_fits cfg hne h, Option.map_some, finalizeCtx_setPhase]

/-- Settles O48: the accepted parts in turn, whose salt, key and `T` are those absorbing leaves. -/
theorem hashAnswersTheDigest : Obligations.HashAnswersTheDigest := by
  intro v salt data s hmax h'
  have hfits : (freshCtx v (saltWords v salt)).fits data = true := by
    rw [fits_iff]
    simpa [freshCtx] using hmax
  have ht : (absorb config (freshCtx v (saltWords v salt)) data).t = BitVec.ofNat v.tw (8 * data.length) := by
    rw [absorb_t]
    exact BitVec.zero_add _
  rw [exec_hash_of_ok (checkOperands_vid (key := none) nofun), hashCtx_eq_bind, createCtx, Option.bind_some,
    updateCtx_map_finalizeCtx config hfits, State.complete, ← ht]
  simp only [finalizeCtx, absorb_s, absorb_k, h']
  rfl

/-- Settles O47: RESET leaves the very context INIT made, and from there the two runs are the same commands. -/
theorem resetForgetsTheMessage : Obligations.ResetForgetsTheMessage := by
  intro v salt a b s ha hb
  have hopen : (freshCtx v (saltWords v salt)).phase ≠ .finalized := nofun
  have hsome : ∀ data : List Byte, 8 * data.length ≤ v.maxBits →
      ∃ c, updateCtx config (freshCtx v (saltWords v salt)) data = some c := by
    intro data hmax
    rw [← Option.isSome_iff_exists, updateCtx_isSome_iff]
    simpa [freshCtx] using hmax
  obtain ⟨ca, hca⟩ := hsome a ha
  obtain ⟨cb, hcb⟩ := hsome b hb
  have hinit := exec_init_unkeyed v salt s
  obtain ⟨t1, ht1, hrun1⟩ := execAll_updates_of_some (s := s.ended (.live v (freshCtx v (saltWords v salt))) .ok .none)
    [a] rfl hopen (by simpa using hca)
  obtain ⟨hs, hk⟩ := updateCtx_keeps_operands hca
  have hreset : exec .reset t1 = .next (t1.ended (.live v (freshCtx v (saltWords v salt))) .ok .none) := by
    rw [exec_reset_of_live ht1, resetCtx_of_unkeyed config hk, hs]
    rfl
  have hend : ∀ s' : State, s'.engine = .live v (freshCtx v (saltWords v salt)) →
      ∃ t, execAll [.update b, .finalize] s' = .next t ∧ t.engine = .live v (finalizeCtx config cb) ∧
        t.lastResponse = some ⟨.ok, .digest (digest v (finalizeCtx config cb).h)⟩ := fun s' he =>
    execAll_updates_finalize [b] he hopen (by simpa using hcb)
  obtain ⟨t, hrun, heng, hresp⟩ := hend _ (t1.ended_engine _ _ _)
  obtain ⟨t', hrun', heng', hresp'⟩ := hend _ (s.ended_engine _ _ _)
  refine ⟨t, t', _, ?_, ?_, heng.trans heng'.symm, hresp, hresp'⟩
  · rw [execAll_cons_of_next hinit]
    exact (hrun1 _).trans ((execAll_cons_of_next hreset).trans hrun)
  · rw [execAll_cons_of_next hinit]
    exact hrun'

end Sys2Proof.Machine
end

section
/-! Outcomes do not depend on the values of data bytes and salt words (60_exceptions.md section 3). -/

namespace Sys2Proof.Machine

variable {s t : State} {v : Variant} {c c' : Ctx v} {d d' : List Byte} {cfg : Config}

/-- `FILL` after absorbing depends on `FILL` before and the number of bytes alone (R85). -/
theorem absorb_fill_congr (hlen : d.length = d'.length) (hfill : c.fill = c'.fill) :
    (absorb cfg c d).fill = (absorb cfg c' d').fill := by
  have hbyte : ∀ (c : Ctx v) (x : Byte), (absorbByte cfg c x).fill = if c.fill + 1 = v.bs then 0 else c.fill + 1 := by
    intro c x
    obtain ⟨hfull, hx⟩ | ⟨hne, hx⟩ := absorbByte_cases cfg c x
    · rw [hx, if_pos hfull]; rfl
    · rw [hx, if_neg hne]; simp [Ctx.fill]
  induction d generalizing d' c c' with
  | nil =>
    obtain rfl : d' = [] := List.eq_nil_of_length_eq_zero hlen.symm
    exact hfill
  | cons x xs ih =>
    cases d' with
    | nil => cases hlen
    | cons y ys =>
      have hrest : xs.length = ys.length := Nat.succ.inj hlen
      have hnext : (absorbByte cfg c x).fill = (absorbByte cfg c' y).fill := by rw [hbyte, hbyte, hfill]
      rw [absorb_cons, absorb_cons]
      exact ih hrest hnext

/-- UPDATEs of equal length leave one context with the same `ST`, `T` and `FILL` (R84). -/
theorem updateCtx_same_length {c1 : Ctx v} (hlen : d.length = d'.length) (h : updateCtx cfg c d = some c1) :
    ∃ c2, updateCtx cfg c d' = some c2 ∧ c2.phase.st = c1.phase.st ∧ c2.t.toNat = c1.t.toNat ∧ c2.fill = c1.fill := by
  have hsome : (updateCtx cfg c d').isSome = true := by
    rw [updateCtx_isSome_iff, ← hlen, ← updateCtx_isSome_iff (cfg := cfg), h]
    rfl
  obtain ⟨c2, h2⟩ := Option.isSome_iff_exists.1 hsome
  have hnil : d' = [] ↔ d = [] := by rw [← List.length_eq_zero_iff, ← hlen, List.length_eq_zero_iff]
  refine ⟨c2, h2, ?_, ?_, ?_⟩
  · simp only [updateCtx_phase h, updateCtx_phase h2, hnil]
  · rw [updateCtx_t cfg h, updateCtx_t cfg h2, hlen]
  · have hfill : ∀ {c c1 : Ctx v} {d : List Byte}, updateCtx cfg c d = some c1 → c1.fill = (absorb cfg c d).fill := by
      intro c c1 d h
      obtain ⟨rfl, rfl⟩ | ⟨-, -, rfl⟩ := updateCtx_cases cfg h <;> rfl
    rw [hfill h, hfill h2]
    exact absorb_fill_congr hlen.symm rfl

/-- `T` and `FILL` after HASH (R101). -/
theorem hashCtx_counts {salt : SaltWords v} {key : Option (List Byte)} (h : hashCtx config v salt key d = some c) :
    (Engine.live v c).counts = some (prefixBits v salt key + 8 * d.length, 0) := by
  obtain ⟨c1, c2, h1, h2, rfl⟩ := hashCtx_cases h
  rw [Engine.counts, finalizeCtx_t, updateCtx_t config h2, createCtx_t h1]
  rfl

/-- Settles O58: UPDATE is decided by `ST` and the total length, HASH without key by its identifier and the length. -/
theorem inputValuesSelectNoOutcome : Obligations.InputValuesSelectNoOutcome := by
  refine ⟨fun d d' s t hlen h => ?_, fun vid o o' d d' s t hlen h => ?_⟩
  · obtain ⟨hclosed, rfl⟩ | ⟨v, c, c1, he, hp, hc, rfl⟩ := execUpdate_cases h
    · exact ⟨_, exec_update_of_closed (State.st_closed_iff.2 hclosed), rfl, rfl, rfl⟩
    · obtain ⟨c2, h2, hst, ht, hfill⟩ := updateCtx_same_length hlen hc
      refine ⟨s.accept (.live v c2) .none, ?_, ?_, hst, ?_⟩
      · rw [exec_update_of_open he hp, h2]
        rfl
      · simp [State.lastResponse]
      · simp [Engine.counts, ht, hfill]
  · obtain ⟨e, hops, rfl⟩ | ⟨v, c, hops, hc, rfl⟩ := execHash_cases h
    · exact ⟨_, exec_hash_of_error hops, rfl, rfl, rfl⟩
    · have hsome : (hashCtx config v (saltWords v (some o')) none d').isSome = true := by
        rw [hashCtx_isSome_iff, ← hlen]
        exact (hashCtx_isSome_iff (salt := saltWords v (some o))).1 (by rw [hc]; rfl)
      obtain ⟨c', hc'⟩ := Option.isSome_iff_exists.1 hsome
      refine ⟨s.accept (.live v c') (.digest (digest v c'.h)), ?_, ?_, ?_, ?_⟩
      · rw [exec_hash_of_ok hops, hc']
        rfl
      · rw [State.accept_status, State.accept_status]
      · rw [State.st, State.st, State.accept_engine, State.accept_engine, Engine.st, Engine.st, hashCtx_phase hc,
          hashCtx_phase hc']
      · rw [State.accept_engine, State.accept_engine, hashCtx_counts hc, hashCtx_counts hc', hlen]
        rfl

end Sys2Proof.Machine
end

section
/-! The padding (43_finalize.md R92 to R94) as bytes, as bits and as words of the last block (20_memory.md R33, R34). -/

namespace Sys2Proof.Machine

variable {v : Variant} {c : Ctx v}

/-- Decoding an encoding loses what does not fit in its bytes (00_scope.md section 6.2). -/
theorem beNat_bytesBE (x n : Nat) : beNat (bytesBE x n) = x % 256 ^ n := by
  induction n generalizing x with
  | zero => rw [Nat.pow_zero, Nat.mod_one]; rfl
  | succ n ih =>
    have hsplit : x % 256 ^ (n + 1) = x % 256 + 256 * (x / 256 % 256 ^ n) := by rw [Nat.pow_succ', Nat.mod_mul]
    rw [bytesBE_succ, beNat_concat, ih, BitVec.toNat_ofNat, hsplit]
    omega

/-- Settles O23: a number below `256 ^ n` fits in `n` bytes. -/
theorem bigEndianRoundTrip : Obligations.BigEndianRoundTrip :=
  ⟨fun x n hx => (beNat_bytesBE x n).trans (Nat.mod_eq_of_lt hx), bytesBE_beNat⟩

/-- An encoding in `m + n` bytes is that of the high part in `m` bytes, then the low part in `n`. -/
theorem bytesBE_add (x m n : Nat) : bytesBE x (m + n) = bytesBE (x / 256 ^ n) m ++ bytesBE x n := by
  induction n generalizing x with
  | zero => simp [bytesBE]
  | succ n ih =>
    rw [← Nat.add_assoc, bytesBE_succ, ih, bytesBE_succ x n, Nat.div_div_eq_div_mul, ← Nat.pow_succ', List.append_assoc]

/-- The bytes between the message and the length field, by the fill (R93, R94). -/
def padding (v : Variant) (f : Nat) : List Byte :=
  if f ≤ v.lim then pad1 v f else 0x80 :: zeros (v.bs - f - 1) ++ pad2 v

@[simp] theorem length_lengthField (c : Ctx v) : (lengthField c).length = v.lb := length_bytesBE _ _

/-- The first of two padding blocks fills the block (R94). -/
theorem length_markerBlock (hfill : c.fill < v.bs) : (markerBlock c).length = v.bs := by
  rw [markerBlock, memWrite_fill, List.length_append, List.length_cons, length_zeros, ← Ctx.fill]
  omega

/-- With room for the length field there is one padding block (R93). -/
theorem paddingBlocks_of_fill_le (h : c.fill ≤ v.lim) : paddingBlocks c =
    [⟨c.buf ++ (pad1 v c.fill ++ lengthField c), if c.fill > 0 then c.t else 0, true⟩] := by
  rw [paddingBlocks, if_pos h, memWrite_fill]

/-- Without, there are two; the second overwrites the whole buffer (R94). -/
theorem paddingBlocks_of_lim_lt (h : v.lim < c.fill) (hfill : c.fill < v.bs) : paddingBlocks c =
    [⟨c.buf ++ 0x80 :: zeros (v.bs - c.fill - 1), c.t, false⟩, ⟨pad2 v ++ lengthField c, 0, true⟩] := by
  have hlen : (markerBlock c).length ≤ (pad2 v ++ lengthField c).length := by
    rw [length_markerBlock hfill, List.length_append, length_pad2, length_lengthField, lim_add]
  rw [paddingBlocks, if_neg (Nat.not_le_of_lt h), memWrite_whole _ _ hlen, markerBlock, memWrite_fill]

/-- The padded message (R92 to R94). -/
theorem flatMap_paddingBlocks (hfill : c.fill < v.bs) :
    (paddingBlocks c).flatMap (·.bytes) = c.buf ++ padding v c.fill ++ lengthField c := by
  unfold padding
  split_ifs with h
  · simp [paddingBlocks_of_fill_le h]
  · simp [paddingBlocks_of_lim_lt (Nat.lt_of_not_le h) hfill]

theorem length_paddingBlocks (c : Ctx v) : (paddingBlocks c).length = if c.fill ≤ v.lim then 1 else 2 := by
  unfold paddingBlocks
  split_ifs <;> rfl

/-- The last block is filled up to the length field, which ends it (R34, R93, R94). -/
theorem getLast?_paddingBlocks (hfill : c.fill < v.bs) : ∃ b pre, (paddingBlocks c).getLast? = some b ∧
    b.bytes = pre ++ lengthField c ∧ pre.length = v.lim + 1 := by
  by_cases h : c.fill ≤ v.lim
  · rw [paddingBlocks_of_fill_le h]
    refine ⟨_, c.buf ++ pad1 v c.fill, rfl, (List.append_assoc _ _ _).symm, ?_⟩
    rw [List.length_append, length_pad1 v c.fill h, ← Ctx.fill]
    omega
  · rw [paddingBlocks_of_lim_lt (Nat.lt_of_not_le h) hfill]
    exact ⟨_, pad2 v, rfl, rfl, length_pad2 v⟩

/-- Every padding block is a full block (R33). -/
theorem length_bytes_of_mem_paddingBlocks (hfill : c.fill < v.bs) {b : PaddingBlock v} (hb : b ∈ paddingBlocks c) :
    b.bytes.length = v.bs := by
  have hlim := lim_add v
  by_cases h : c.fill ≤ v.lim
  · rw [paddingBlocks_of_fill_le h, List.mem_singleton] at hb
    subst hb
    rw [List.length_append, List.length_append, length_pad1 v c.fill h, length_lengthField, ← Ctx.fill]
    omega
  · rw [paddingBlocks_of_lim_lt (Nat.lt_of_not_le h) hfill, List.mem_pair] at hb
    obtain rfl | rfl := hb
    · rw [← memWrite_fill]
      exact length_markerBlock hfill
    · rw [List.length_append, length_pad2, length_lengthField, hlim]

/-- A word of a block is the number of its bytes, wherever they stand (R33). -/
theorem loadWord_append {pre m post : List Byte} {k : Nat} (hpre : pre.length = k * v.wordBytes)
    (hm : m.length = v.wordBytes) : (loadWord v (pre ++ (m ++ post)) k).toNat = beNat m := by
  rw [loadWord, memRead, ← hpre, List.drop_left, ← hm, List.take_left, beWord_toNat v m hm]

/-- The length field is two words (R5, R34). -/
theorem lb_eq (v : Variant) : v.lb = v.wordBytes + v.wordBytes := by cases v <;> rfl

/-- Settles O45: the length field is the encoding of the two halves of `T` and ends the last block. -/
theorem lengthFieldIsTheLastTwoWords : Obligations.LengthFieldIsTheLastTwoWords := by
  intro v c hfill
  obtain ⟨b, pre, hlast, hbytes, hpre⟩ := getLast?_paddingBlocks hfill
  have hlim := lim_add v
  have hbs := bs_eq v
  have hlb := lb_eq v
  have hfield : lengthField c = bytesBE (c.t.toNat / 2 ^ v.w) v.wordBytes ++ bytesBE c.t.toNat v.wordBytes := by
    rw [lengthField, hlb, bytesBE_add, pow_wordBytes]
  have h14 : (loadBlock v b.bytes)[14] = loadWord v b.bytes 14 := rfl
  have h15 : (loadBlock v b.bytes)[15] = loadWord v b.bytes 15 := rfl
  have hhigh : c.t.toNat / 2 ^ v.w < 2 ^ v.w := by
    apply Nat.div_lt_of_lt_mul
    rw [← pow_add, ← two_mul]
    exact c.t.isLt
  refine ⟨b, hlast, length_bytes_of_mem_paddingBlocks hfill (List.mem_of_getLast? hlast), ?_, ?_, ?_⟩
  · have hoff : v.bs - v.lb = pre.length := by omega
    rw [hbytes, hoff, List.drop_left]
    rfl
  · rw [h14, hbytes, hfield, loadWord_append (by omega) (length_bytesBE _ _),
      beNat_bytesBE, pow_wordBytes, Nat.mod_eq_of_lt hhigh]
  · rw [h15, hbytes, hfield, ← List.append_assoc,
      ← List.append_nil (bytesBE c.t.toNat v.wordBytes),
      loadWord_append (by rw [List.length_append, length_bytesBE]; omega) (length_bytesBE _ _),
      beNat_bytesBE, pow_wordBytes]

/-- The bits of a number are those of its high part, then the low ones. -/
theorem natBits_add (m n x : Nat) : natBits (m + n) x = natBits m (x / 2 ^ n) ++ natBits n x := by
  unfold natBits
  rw [List.range_add, List.map_append, List.map_map]
  congr 1
  · refine List.map_congr_left fun i hi => ?_
    have hlt := List.mem_range.1 hi
    rw [Nat.testBit_div_two_pow]
    congr 1
    omega
  · refine List.map_congr_left fun i _ => ?_
    rw [Function.comp_apply]
    congr 1
    omega

theorem byteBits_ofNat (x : Nat) : byteBits (BitVec.ofNat 8 x) = natBits 8 x := by
  refine List.map_congr_left fun i _ => ?_
  have hlt : 7 - i < 8 := by omega
  rw [BitVec.getLsbD_ofNat, decide_eq_true hlt, Bool.true_and]

/-- The bits of an encoding are those of the number (R127). -/
theorem flatMap_byteBits_bytesBE (x n : Nat) : (bytesBE x n).flatMap byteBits = natBits (8 * n) x := by
  induction n generalizing x with
  | zero => rfl
  | succ n ih =>
    rw [bytesBE_succ, List.flatMap_append, ih, Nat.mul_succ, natBits_add, List.flatMap_singleton, byteBits_ofNat]
    rfl

theorem flatMap_byteBits_zeros (n : Nat) : (zeros n).flatMap byteBits = List.replicate (8 * n) false := by
  have hzero : byteBits 0 = List.replicate 8 false := by decide
  rw [zeros, List.flatMap_replicate, hzero, List.flatten_replicate_replicate, Nat.mul_comm]

/-- A marker byte, zero bytes and the discriminator as bits (R93, R94). -/
theorem flatMap_byteBits_marker (v : Variant) (n : Nat) :
    (0x80 :: (zeros n ++ [discriminator v])).flatMap byteBits =
      [true] ++ List.replicate (14 + 8 * n) false ++ [v.long] := by
  have hmarker : byteBits 0x80 = [true] ++ List.replicate 7 false := by decide
  have hlast : byteBits (discriminator v) = List.replicate 7 false ++ [v.long] := by cases v <;> decide
  have hzeros : List.replicate (14 + 8 * n) false =
      List.replicate 7 false ++ (List.replicate (8 * n) false ++ List.replicate 7 false) := by
    rw [List.replicate_append_replicate, List.replicate_append_replicate]
    congr 1
    omega
  rw [List.flatMap_cons, List.flatMap_append, List.flatMap_singleton, flatMap_byteBits_zeros, hmarker, hlast, hzeros]
  simp only [List.append_assoc]

/-- The number of 0 bits of the padding (43_finalize.md section 2). -/
def padZeroBits (v : Variant) (f : Nat) : Nat :=
  if f = v.lim then 6 else if f < v.lim then 14 + 8 * (v.lim - f - 1) else 14 + 8 * (v.bs - f - 1 + v.lim)

/-- The padding as bits: at `FILL = LIM` marker and discriminator share a byte, else they are two (R93, R94). -/
theorem flatMap_byteBits_padding (v : Variant) (f : Nat) :
    (padding v f).flatMap byteBits = [true] ++ List.replicate (padZeroBits v f) false ++ [v.long] := by
  obtain hlt | rfl | hgt := Nat.lt_trichotomy f v.lim
  · rw [padding, if_pos hlt.le, pad1, if_neg hlt.ne, padZeroBits, if_neg hlt.ne, if_pos hlt, flatMap_byteBits_marker]
  · have hshared : byteBits (0x80 ||| discriminator v) = [true] ++ List.replicate 6 false ++ [v.long] := by
      cases v <;> decide
    rw [padding, if_pos le_rfl, pad1, if_pos rfl, padZeroBits, if_pos rfl, List.flatMap_singleton, hshared]
  · have hbytes : padding v f = 0x80 :: (zeros (v.bs - f - 1 + v.lim) ++ [discriminator v]) := by
      rw [padding, if_neg hgt.not_ge, pad2, zeros, zeros, zeros, ← List.replicate_append_replicate, List.cons_append,
        List.append_assoc]
    rw [hbytes, flatMap_byteBits_marker, padZeroBits, if_neg hgt.ne', if_neg hgt.not_gt]

/-- The padded message is one block or two (R92). -/
theorem padded_length (v : Variant) (f : Nat) (hf : f < v.bs) : 8 * f + 1 + padZeroBits v f + 1 + 8 * v.lb =
    8 * v.bs * (if f ≤ v.lim then 1 else 2) := by
  have hlim := lim_add v
  unfold padZeroBits
  split_ifs <;> omega

/-- Settles O44: the blocks joined are message, padding and length field, whose bits are known piece by piece. -/
theorem paddingIsOneBitString : Obligations.PaddingIsOneBitString := by
  intro v c hfill
  refine ⟨padZeroBits v c.fill, ?_, ?_, fun h => if_pos h, ?_, length_paddingBlocks c,
    fun b => length_bytes_of_mem_paddingBlocks hfill⟩
  · have hlim := lim_add v
    unfold padZeroBits
    split_ifs <;> omega
  · rw [padded_length v c.fill hfill, Nat.mul_mod_right]
  · rw [flatMap_paddingBlocks hfill, List.flatMap_append, List.flatMap_append, flatMap_byteBits_padding, lengthField,
      flatMap_byteBits_bytesBE]
    simp only [List.append_assoc]

end Sys2Proof.Machine
end
